-- ==== Sys2Proof/Word.lean ====
section
/-! DEFINITION. The word types of the block and the 16-bit arithmetic of spec/00_scope.md (R8, R10, R11).
Every value is unsigned. -/

namespace Sys2Proof

/-- A stimulus word, or the trace word of an internal operation: 32 bits, delivered whole (R64, R80). -/
abbrev Word := BitVec 32

/-- A tick count or a microsecond count: 16 bits unsigned (R8 fixes the width of counter, capture and compare). -/
abbrev Ticks := BitVec 16

/-- One byte of the serial stream (R8: serial word width 8). -/
abbrev Byte := BitVec 8

/-- `a +16 b` of R11. -/
abbrev add16 (a b : Ticks) : Ticks := a + b

/-- `a -16 b` of R11. -/
abbrev sub16 (a b : Ticks) : Ticks := a - b

end Sys2Proof
end

