-- ==== Sys2Proof/Syntax.lean ====
section
/-! DEFINITION. The twelve stimuli and internal operations of spec/opcode_table.json (R83), their classes, forms
and agents, and the reject codes of R311. -/

namespace Sys2Proof

/-- The stimuli the environment presents and the internal operations the sequencer performs (R83), one
constructor per row of spec/opcode_table.json. -/
inductive Instr where
  /-- TICK, one count of the capture timer (R123). -/
  | tick
  /-- RISE, a rising edge of the echo line (R125). -/
  | rise
  /-- FALL, a falling edge of the echo line (R126). -/
  | fall
  /-- STALE_RISE, the capture of `v` for a line already high at arm (R128). -/
  | staleRise (v : Ticks)
  /-- BYTE, one byte-clocked bus transaction; `mosi` is the byte the master shifts in (R181). -/
  | byte (mosi : Byte)
  /-- USTICK, one microsecond of the delay time base (R103). -/
  | ustick
  /-- RESET, power-on (R400). -/
  | reset
  /-- TRIG_BEGIN, the trigger goes high (R101). -/
  | trigBegin
  /-- TRIG_END, the trigger goes low (R102). -/
  | trigEnd
  /-- ARM, `armCapture(timeoutTicks)` (R121). -/
  | arm (timeoutTicks : Ticks)
  /-- TEARDOWN, the end of a measurement (R201). -/
  | teardown
  /-- QUIET_END, the end of the quiet delay (R202). -/
  | quietEnd
  deriving DecidableEq, Repr

/-- The operation codes of R83. -/
inductive Opcode where
  | tick | rise | fall | staleRise | byte | ustick | reset
  | trigBegin | trigEnd | arm | teardown | quietEnd
  deriving DecidableEq, Repr

/-- Who issues a word (R83): the environment at the stimulus port, or the sequencer alone. -/
inductive OpClass where
  | stimulus
  | internal
  deriving DecidableEq, Repr

/-- The operand forms of R82. -/
inductive OpForm where
  /-- no operand: `imm` is zero -/
  | s0
  /-- BYTE: `imm[15:8]` is zero, `imm[7:0]` is `mosi` -/
  | sb
  /-- STALE_RISE: `imm` is the captured value -/
  | sv
  /-- ARM: `imm` is the compare value -/
  | sa
  deriving DecidableEq, Repr

/-- The agents that take a step (R7). -/
inductive Agent where
  | sequencer
  | captureTimerClock
  | microsecondTimeBase
  | echoLine
  | busMaster
  | resetSource
  deriving DecidableEq, Repr

/-- The reject codes 1 to 5 of R311; code 0 is "no fault", 6 and 7 are never written. -/
inductive RejectCode where
  /-- 1, REJ_OPCODE: the opcode is reserved. -/
  | opcode
  /-- 2, REJ_INTERNAL: an internal operation presented at the stimulus port. -/
  | internal
  /-- 3, REJ_FIELD: a field the form requires to be zero is not. -/
  | field
  /-- 4, REJ_EDGE: RISE while high, or FALL while low. -/
  | edge
  /-- 5, REJ_STALE: STALE_RISE while not admitted. -/
  | stale
  deriving DecidableEq, Repr

end Sys2Proof
end

