-- ==== Sys2Proof/Decode.lean ====
section
/-! DEFINITION. The word format, the decoders and the encoder of spec/30_encoding.md (R80 to R88), and the opcode
map read as a table of patterns and masks. -/

namespace Sys2Proof

/-- The operation code byte of each operation (R83). -/
def Opcode.toByte : Opcode → BitVec 8
  | .tick => 0x01
  | .rise => 0x02
  | .fall => 0x03
  | .staleRise => 0x04
  | .byte => 0x05
  | .ustick => 0x06
  | .reset => 0x07
  | .trigBegin => 0x10
  | .trigEnd => 0x11
  | .arm => 0x12
  | .teardown => 0x13
  | .quietEnd => 0x14

/-- The opcode map of R83 from the byte; every byte it does not list is reserved (R86). -/
def Opcode.ofByte? (b : BitVec 8) : Option Opcode :=
  if b = 0x01 then some .tick
  else if b = 0x02 then some .rise
  else if b = 0x03 then some .fall
  else if b = 0x04 then some .staleRise
  else if b = 0x05 then some .byte
  else if b = 0x06 then some .ustick
  else if b = 0x07 then some .reset
  else if b = 0x10 then some .trigBegin
  else if b = 0x11 then some .trigEnd
  else if b = 0x12 then some .arm
  else if b = 0x13 then some .teardown
  else if b = 0x14 then some .quietEnd
  else none

/-- The class column of R83. -/
def Opcode.opClass : Opcode → OpClass
  | .tick | .rise | .fall | .staleRise | .byte | .ustick | .reset => .stimulus
  | .trigBegin | .trigEnd | .arm | .teardown | .quietEnd => .internal

/-- The form column of R83. -/
def Opcode.form : Opcode → OpForm
  | .tick | .rise | .fall | .ustick | .reset | .trigBegin | .trigEnd | .teardown | .quietEnd => .s0
  | .staleRise => .sv
  | .byte => .sb
  | .arm => .sa

/-- The `imm` bits a form requires to be zero (R82). -/
def OpForm.zeroMask : OpForm → BitVec 16
  | .s0 => 0xFFFF
  | .sb => 0xFF00
  | .sv => 0x0000
  | .sa => 0x0000

/-- `opc`, bits 31:24 of a word (R80). -/
def opcField (w : Word) : BitVec 8 := w.extractLsb' 24 8

/-- `rsv`, bits 23:16 of a word (R80). -/
def rsvField (w : Word) : BitVec 8 := w.extractLsb' 16 8

/-- `imm`, bits 15:0 of a word (R80). -/
def immField (w : Word) : BitVec 16 := w.extractLsb' 0 16

/-- The word `{opc, rsv, imm}` (R10, R80). -/
def joinFields (opc rsv : BitVec 8) (imm : BitVec 16) : Word := opc ++ rsv ++ imm

/-- The operation an operation code and an `imm` stand for, once the fields are checked (R82). -/
def Opcode.withImm (o : Opcode) (imm : BitVec 16) : Instr :=
  match o with
  | .tick => .tick
  | .rise => .rise
  | .fall => .fall
  | .staleRise => .staleRise imm
  | .byte => .byte (imm.extractLsb' 0 8)
  | .ustick => .ustick
  | .reset => .reset
  | .trigBegin => .trigBegin
  | .trigEnd => .trigEnd
  | .arm => .arm imm
  | .teardown => .teardown
  | .quietEnd => .quietEnd

/-- The operation code of an operation. -/
def Instr.opcode : Instr → Opcode
  | .tick => .tick
  | .rise => .rise
  | .fall => .fall
  | .staleRise _ => .staleRise
  | .byte _ => .byte
  | .ustick => .ustick
  | .reset => .reset
  | .trigBegin => .trigBegin
  | .trigEnd => .trigEnd
  | .arm _ => .arm
  | .teardown => .teardown
  | .quietEnd => .quietEnd

/-- The `imm` field of an operation (R82). -/
def Instr.imm : Instr → BitVec 16
  | .staleRise v => v
  | .byte mosi => mosi.zeroExtend 16
  | .arm t => t
  | .tick | .rise | .fall | .ustick | .reset | .trigBegin | .trigEnd | .teardown | .quietEnd => 0

/-- The class of an operation (R83). -/
def Instr.opClass (i : Instr) : OpClass := i.opcode.opClass

/-- The agent that takes an operation's step (R7, R326). -/
def Instr.agent : Instr → Agent
  | .tick => .captureTimerClock
  | .ustick => .microsecondTimeBase
  | .rise | .fall | .staleRise _ => .echoLine
  | .byte _ => .busMaster
  | .reset => .resetSource
  | .trigBegin | .trigEnd | .arm _ | .teardown | .quietEnd => .sequencer

/-- The value of `FAULT_CODE` for each reject code (R311). -/
def RejectCode.code : RejectCode → BitVec 3
  | .opcode => 1
  | .internal => 2
  | .field => 3
  | .edge => 4
  | .stale => 5

/-- What any 32-bit word of R83 stands for, stimulus or internal operation; reserved operation codes and
non-zero reserved fields are rejected by name (R81, R82, R83, R86, R88). This is the reading of a trace word; the
stimulus port reads words by `decodePort`. -/
def decodeWord (w : Word) : Except RejectCode Instr :=
  match Opcode.ofByte? (opcField w) with
  | none => .error .opcode
  | some o =>
    if rsvField w ≠ 0 then .error .field
    else if immField w &&& o.form.zeroMask ≠ 0 then .error .field
    else .ok (o.withImm (immField w))

/-- `Decode(w)` of R85, the decoder of the stimulus port: code 2 before code 1 before code 3 (R312). -/
def decodePort (w : Word) : Except RejectCode Instr :=
  if 0x10 ≤ (opcField w).toNat ∧ (opcField w).toNat ≤ 0x14 then .error .internal
  else decodeWord w

/-- The word of an operation (R80, R82, R83, R88). -/
def encode (i : Instr) : Word := joinFields i.opcode.toByte 0 i.imm

/-- The instruction this decoder reads from a row of spec/opcode_table.json: the table numbers a word's bits as
R80 does, so the bits above `nbits` being zero the word is `w` itself; a value wider than a word is no word. -/
def decodeTableWord (nbits w : Nat) : Option Instr :=
  if w % 2 ^ nbits < 2 ^ 32 then (decodeWord (BitVec.ofNat 32 (w % 2 ^ nbits))).toOption else none

/-- `match` of an operation's row of spec/opcode_table.json: its operation code and zeros. -/
def Opcode.pattern (o : Opcode) : Word := joinFields o.toByte 0 0

/-- `mask` of an operation's row: operation code, reserved field and the `imm` bits the form fixes. -/
def Opcode.mask (o : Opcode) : Word := joinFields 0xFF 0xFF o.form.zeroMask

/-- Every operation code, in the order of R83. -/
def Opcode.all : List Opcode :=
  [.tick, .rise, .fall, .staleRise, .byte, .ustick, .reset, .trigBegin, .trigEnd, .arm, .teardown, .quietEnd]

end Sys2Proof
end

