-- ==== Sys2Proof/Config.lean ====
section
/-! DEFINITION. The implementation parameters of R8. The parameters some rule reads are the record
`Params`, fixed for a whole run (R419). The parameters R8 marks OPEN and no rule reads are constants without a
body, so that nothing can be proved from a value of theirs. -/

namespace Sys2Proof

/-- The parameters that some rule reads (R8). State carries them so that a statement about every state is a
statement about every configuration; no step changes them (R419). -/
structure Params where
  /-- `TIMEOUT_TICKS`, the compare value ARM loads (R121). -/
  timeoutTicks : Ticks
  /-- `TRIG_PULSE_US`, the trigger pulse width TRIG_BEGIN loads (R101). -/
  trigPulseUs : Ticks
  /-- `QUIET_US`, the quiet period TEARDOWN loads (R201). -/
  quietUs : Ticks
  /-- `STALE_EDGE_CAPTURE`, whether STALE_RISE can ever be admitted (R128, D15). -/
  staleEdgeCapture : Bool
  deriving DecidableEq, Repr

/-- The defaults R8 gives: 40000, 10, 200, true. -/
def Params.defaults : Params :=
  { timeoutTicks := 40000, trigPulseUs := 10, quietUs := 200, staleEdgeCapture := true }

/-- A configuration as it is asked for, before R9 has admitted it: the three counts are naturals, so that a
value above 65535 can be asked for and refused. -/
structure ParamRequest where
  timeoutTicks : Nat
  trigPulseUs : Nat
  quietUs : Nat
  staleEdgeCapture : Bool
  deriving DecidableEq, Repr

/-- The configuration an admitted request stands for. -/
def ParamRequest.params (r : ParamRequest) : Params :=
  { timeoutTicks := BitVec.ofNat 16 r.timeoutTicks
    trigPulseUs := BitVec.ofNat 16 r.trigPulseUs
    quietUs := BitVec.ofNat 16 r.quietUs
    staleEdgeCapture := r.staleEdgeCapture }

/-- The two orders of the bits of a byte on the serial wire (`SERIAL_BIT_ORDER`, R63). -/
inductive SerialBitOrder where
  | mostSignificantFirst
  | leastSignificantFirst
  deriving DecidableEq, Repr, Inhabited

/-- A positive rational, `(num + 1) / (den + 1)`: the type R8 gives `TICKS_PER_US`. -/
structure PositiveRational where
  num : Nat
  den : Nat
  deriving DecidableEq, Repr, Inhabited

/-- `SERIAL_CLK_DIV` (R8, D26): OPEN, read by no rule. -/
opaque Config.serialClkDiv : Nat

/-- `TICKS_PER_US` (R8, R418, D5): OPEN, read by no rule. -/
opaque Config.ticksPerUs : PositiveRational

/-- `SERIAL_BIT_ORDER` (R8, R63, D25): OPEN, read by no rule. -/
opaque Config.serialBitOrder : SerialBitOrder

/-- `SERIAL_MODE` (R8, R63, D25): OPEN, read by no rule; the spec lists no names, so a mode is an index. -/
opaque Config.serialMode : Nat

end Sys2Proof
end

