-- ==== Sys2Proof/WellFormed.lean ====
section
/-! DEFINITION. Which configurations are admitted (R9) and which operations a configuration can perform
(R82, form SA). -/

namespace Sys2Proof

/-- R9 on a requested configuration: `1 <= TIMEOUT_TICKS <= 65535`, `1 <= TRIG_PULSE_US <= 65535`,
`0 <= QUIET_US <= 65535`. -/
def ParamRequest.admitted (r : ParamRequest) : Bool :=
  decide (1 ≤ r.timeoutTicks) && decide (r.timeoutTicks ≤ 65535)
    && decide (1 ≤ r.trigPulseUs) && decide (r.trigPulseUs ≤ 65535)
    && decide (r.quietUs ≤ 65535)

/-- R9 on a configuration whose counts are 16 bits wide: what is left of it is that neither the timeout nor the
pulse is zero. -/
def Params.wf (p : Params) : Bool :=
  p.timeoutTicks != 0 && p.trigPulseUs != 0

/-- An operation of a block configured by `p`: the operand of ARM is always `TIMEOUT_TICKS` (R82, R121); every
other operand is legal at every value of its width. -/
def Instr.wf (p : Params) : Instr → Bool
  | .arm t => t == p.timeoutTicks
  | .tick | .rise | .fall | .staleRise _ | .byte _ | .ustick | .reset
  | .trigBegin | .trigEnd | .teardown | .quietEnd => true

end Sys2Proof
end

