-- ==== Sys2Proof/Machine/State.lean ====
section
/-! DEFINITION. The architectural state of R43, register by register, the three fields of the model's own beside
it (the configuration, the environment's schedule, the trace), the state RESET leaves (R400) and the launch of a
configuration (R9, R402). -/

namespace Sys2Proof.Machine

/-- `SEQ_PHASE` (R21); the values 5 to 7 are never written and have no constructor. -/
inductive SeqPhase where
  | idle | pulse | arming | wait | quiet
  deriving DecidableEq, Repr

/-- `MEAS_STATE` (R22); the values 5 to 7 are never written and have no constructor. -/
inductive MeasState where
  | idle | awaitRise | awaitFall | resolved | timedOut
  deriving DecidableEq, Repr

/-- `CAP_POL` (R35). -/
inductive Polarity where
  | rising | falling
  deriving DecidableEq, Repr

/-- `BYTE_SEL` (R39): the position of the pair the next BYTE serves. -/
inductive ByteSel where
  | hi | lo
  deriving DecidableEq, Repr

/-- What the trace records of a stimulus step (R13, R88): accepted, with the byte emitted if any, or rejected
with its code. -/
inductive StimulusOutcome where
  | accepted (miso : Option Byte)
  | rejected (code : RejectCode)
  deriving DecidableEq, Repr

/-- One entry of the trace (R88). -/
inductive TraceEvent where
  | internal (w : Word)
  | stimulus (w : Word) (outcome : StimulusOutcome)
  deriving DecidableEq, Repr

/-- One choice of the scheduling law R210: the sequencer's turn, or a stimulus step with any 32-bit word. -/
inductive Move where
  | sequencer
  | stimulus (w : Word)
  deriving DecidableEq, Repr

/-- Why the machine stops with a fault. R13 and R300 give the block no halt, trap or stop of any kind, so there
is no reason at all: nothing raises one, and that is safe. -/
inductive Fault where
  deriving DecidableEq, Repr

/-- Why the model gives an operation no meaning. -/
inductive Refusal where
  /-- An operation the model does not cover. No arm of `exec` answers it: every operation has its meaning. Safe. -/
  | notModelled (mnemonic : String)
  /-- Raised by the meaning of an internal operation asked for in a state whose row of R203 does not enable it:
  the sequencer takes no such step. `step` never asks for one, so no step answers it. Safe. -/
  | notEnabled (mnemonic : String)
  /-- Raised by `launch` for a configuration outside R9, which is "refused as a whole". Safe. -/
  | configuration
  deriving DecidableEq, Repr

/-- The architectural state of R43 in its order, then the model's own fields. -/
structure State where
  /-- no. 0, `SEQ_PHASE` (R21) -/
  seqPhase : SeqPhase
  /-- no. 1, `SEQ_DELAY` (R25) -/
  seqDelay : Ticks
  /-- no. 2, `TRIG`, the trigger output (R26, R47) -/
  trig : Bool
  /-- no. 3, `MEAS_STATE` (R22) -/
  measState : MeasState
  /-- no. 4, `EDGE_PHASE` (R23): a 2-bit counter -/
  edgePhase : BitVec 2
  /-- no. 5, `CYCLE_COMPLETE` (R24) -/
  cycleComplete : Bool
  /-- no. 6, `RISE_TICKS` (R27) -/
  riseTicks : Ticks
  /-- no. 7, `DISTANCE` (R28) -/
  distance : Ticks
  /-- no. 8, `TCNT` (R29) -/
  tcnt : Ticks
  /-- no. 9, `TCMP` (R30) -/
  tcmp : Ticks
  /-- no. 10, `ICR` (R31) -/
  icr : Ticks
  /-- no. 11, `T_RUN` (R32) -/
  tRun : Bool
  /-- no. 12, `CAP_EN` (R33) -/
  capEn : Bool
  /-- no. 13, `CMP_EN` (R34) -/
  cmpEn : Bool
  /-- no. 14, `CAP_POL` (R35) -/
  capPol : Polarity
  /-- no. 15, `ECHO_LVL` (R36) -/
  echoLvl : Bool
  /-- no. 16, `ARMED_HIGH` (R37) -/
  armedHigh : Bool
  /-- no. 17, `PUB_HI` (R38) -/
  pubHi : Byte
  /-- no. 18, `PUB_LO` (R38) -/
  pubLo : Byte
  /-- no. 19, `BYTE_SEL` (R39) -/
  byteSel : ByteSel
  /-- no. 20, `LAST_TX` (R40) -/
  lastTx : Byte
  /-- no. 21, `FAULT` (R41) -/
  fault : Bool
  /-- no. 22, `FAULT_CODE` (R42) -/
  faultCode : BitVec 3
  /-- MODEL: the configuration of R8, which no step changes (R419; log entry 1). -/
  params : Params
  /-- MODEL: the choices of R210 still to come, next first (log entry 2). -/
  schedule : List Move
  /-- MODEL: the trace of R88, newest first; no rule reads it (R48; log entry 3). -/
  trace : List TraceEvent
  deriving DecidableEq, Repr

/-- The state RESET leaves (R400, the reset column of R43) in a block configured by `p` whose echo line is at
level `echo0` (R402), with nothing scheduled and nothing traced. -/
def State.afterReset (p : Params) (echo0 : Bool) : State :=
  { seqPhase := .idle, seqDelay := 0, trig := false
    measState := .idle, edgePhase := 0, cycleComplete := false
    riseTicks := 0, distance := 0
    tcnt := 0, tcmp := 0, icr := 0
    tRun := false, capEn := false, cmpEn := false, capPol := .rising
    echoLvl := echo0, armedHigh := false
    pubHi := 0, pubLo := 0, byteSel := .hi, lastTx := 0
    fault := false, faultCode := 0
    params := p, schedule := [], trace := [] }

/-- The machine right after reset, with the default parameters of R8 and the echo line low. The spec leaves the
level at launch to the launch input `echo0`; low is the model's choice for this one state (DESIGN CHOICE, log
entry 4), and `launch` takes either level. -/
def State.reset : State := State.afterReset Params.defaults false

/-- Launch (R402): the state a run starts in, for a requested configuration and the launch input `echo0`. A
configuration outside R9 is refused as a whole. -/
def launch (r : ParamRequest) (echo0 : Bool) : Host.Outcome State Fault Refusal :=
  if r.admitted then .next (State.afterReset r.params echo0) else .refused .configuration

end Sys2Proof.Machine
end

