-- ==== Sys2Proof/Machine/Operands.lean ====
section
/-! DEFINITION. The data path: the distance of two captures (R157), the split of a 16-bit value into the two bytes
of a pair (R62, R160), the counters' arithmetic (R11), and the byte a BYTE step serves (R181). -/

namespace Sys2Proof.Machine

/-- `dist(r, f)` of R157: the unsigned 16-bit difference of the falling and the rising capture. -/
def tickDistance (r f : Ticks) : Ticks := sub16 f r

/-- `v[15:8]`, the byte of a pair served first (R62). -/
def highByte (v : Ticks) : Byte := v.extractLsb' 8 8

/-- `v[7:0]`, the byte of a pair served second (R62). -/
def lowByte (v : Ticks) : Byte := v.extractLsb' 0 8

/-- The value a master assembles from a pair, `(first << 8) | second` (R62). -/
def pair (first second : Byte) : Ticks := first ++ second

/-- `TCNT +16 1` (R123, R129). -/
def nextCount (c : Ticks) : Ticks := add16 c 1

/-- One USTICK of the delay counter: down by one while non-zero, never wrapping (R103). -/
def countDown (d : Ticks) : Ticks := if d = 0 then 0 else sub16 d 1

/-- `EDGE_PHASE + 1` (R152, R153), on the register's two bits. -/
def nextEdgePhase (e : BitVec 2) : BitVec 2 := e + 1

/-- The other position of the pair (R181). -/
def ByteSel.toggle : ByteSel → ByteSel
  | .hi => .lo
  | .lo => .hi

/-- The byte the next BYTE step serves (R181). -/
def servedByte (s : State) : Byte :=
  match s.byteSel with
  | .hi => s.pubHi
  | .lo => s.pubLo

end Sys2Proof.Machine
end

