-- ==== Sys2Proof/Machine/Flags.lean ====
section
/-! DEFINITION. The conditions over the block's flags: the encodings of the enumerated registers (R21, R22, R35,
R39), the packed views TCTRL and STATUS (R44, R45), when an edge is captured and when the compare matches (R124 to
R128), the admission of the stimuli (R125, R126, R128), the interrupt a step raises (R301), and the enabling table
of the sequencer (R203). -/

namespace Sys2Proof.Machine

/-- The encoding of R21. -/
def SeqPhase.code : SeqPhase → BitVec 3
  | .idle => 0
  | .pulse => 1
  | .arming => 2
  | .wait => 3
  | .quiet => 4

/-- The encoding of R22. -/
def MeasState.code : MeasState → BitVec 3
  | .idle => 0
  | .awaitRise => 1
  | .awaitFall => 2
  | .resolved => 3
  | .timedOut => 4

/-- The encoding of R35: 0 RISING, 1 FALLING. -/
def Polarity.bit : Polarity → Bool
  | .rising => false
  | .falling => true

/-- The encoding of R39: 0 HI, 1 LO. -/
def ByteSel.bit : ByteSel → Bool
  | .hi => false
  | .lo => true

/-- An awaiting state of R14: AwaitRise or AwaitFall. -/
def MeasState.awaiting : MeasState → Bool
  | .awaitRise | .awaitFall => true
  | .idle | .resolved | .timedOut => false

/-- A terminal state of R14: Resolved or TimedOut. -/
def MeasState.terminal : MeasState → Bool
  | .resolved | .timedOut => true
  | .idle | .awaitRise | .awaitFall => false

/-- `TCTRL`, the packed view of R44: bit 0 `T_RUN`, 1 `CAP_EN`, 2 `CMP_EN`, 3 `CAP_POL`, 4 `ECHO_LVL`,
5 `ARMED_HIGH`, 7:6 zero. -/
def tctrl (s : State) : BitVec 8 :=
  (0 : BitVec 2) ++ BitVec.ofBool s.armedHigh ++ BitVec.ofBool s.echoLvl ++ BitVec.ofBool s.capPol.bit
    ++ BitVec.ofBool s.cmpEn ++ BitVec.ofBool s.capEn ++ BitVec.ofBool s.tRun

/-- `STATUS`, the packed view of R45: bits 2:0 `MEAS_STATE`, 4:3 `EDGE_PHASE`, 5 `CYCLE_COMPLETE`, 6 `BYTE_SEL`,
7 `TRIG`, 10:8 `SEQ_PHASE`, 11 `FAULT`, 14:12 `FAULT_CODE`, 15 zero. -/
def status (s : State) : BitVec 16 :=
  (0 : BitVec 1) ++ s.faultCode ++ BitVec.ofBool s.fault ++ s.seqPhase.code ++ BitVec.ofBool s.trig
    ++ BitVec.ofBool s.byteSel.bit ++ BitVec.ofBool s.cycleComplete ++ s.edgePhase ++ s.measState.code

/-- The compare test of TICK on the incremented counter (R123, R124). -/
def compareMatch (s : State) : Bool := s.cmpEn && s.tcnt == s.tcmp

/-- A rising edge is captured (R125). -/
def capturesRising (s : State) : Bool := s.capEn && s.capPol == .rising

/-- A falling edge is captured (R126). -/
def capturesFalling (s : State) : Bool := s.capEn && s.capPol == .falling

/-- The condition under which STALE_RISE is admitted (R128). -/
def staleAdmitted (s : State) : Bool :=
  s.params.staleEdgeCapture && s.armedHigh && s.capEn && s.capPol == .rising

/-- The admission check of RISE (R125): a line that is high cannot rise. -/
def riseReject (s : State) : Option RejectCode := if s.echoLvl then some .edge else none

/-- The admission check of FALL (R126): a line that is low cannot fall. -/
def fallReject (s : State) : Option RejectCode := if s.echoLvl then none else some .edge

/-- The admission check of STALE_RISE (R128). -/
def staleReject (s : State) : Option RejectCode := if staleAdmitted s then none else some .stale

/-- The admission check of every operation (codes 4 and 5 of R311); the others are admitted in every state. -/
def admissionReject (i : Instr) (s : State) : Option RejectCode :=
  match i with
  | .rise => riseReject s
  | .fall => fallReject s
  | .staleRise _ => staleReject s
  | .tick | .byte _ | .ustick | .reset | .trigBegin | .trigEnd | .arm _ | .teardown | .quietEnd => none

/-- The byte an admitted operation emits to the bus master: BYTE alone emits one (R47, R181). -/
def emitMiso (i : Instr) (s : State) : Option Byte :=
  match i with
  | .byte _ => some (servedByte s)
  | .tick | .rise | .fall | .staleRise _ | .ustick | .reset
  | .trigBegin | .trigEnd | .arm _ | .teardown | .quietEnd => none

/-- The interrupt sources of R301. -/
inductive Interrupt where
  | capture
  | timeout
  | byteRequest
  deriving DecidableEq, Repr

/-- The interrupt the step of `i` in `s` raises, read off R301; the type says that a step raises at most one
(R306). The meanings raise theirs inside the step (Ops `takeInterrupt`). -/
def raisedInterrupt (i : Instr) (s : State) : Option Interrupt :=
  match i with
  | .tick => if s.tRun && s.cmpEn && nextCount s.tcnt == s.tcmp then some .timeout else none
  | .rise => if !s.echoLvl && capturesRising s then some .capture else none
  | .fall => if s.echoLvl && capturesFalling s then some .capture else none
  | .staleRise _ => if staleAdmitted s then some .capture else none
  | .byte _ => some .byteRequest
  | .ustick | .reset | .trigBegin | .trigEnd | .arm _ | .teardown | .quietEnd => none

/-- The row of R203 for TRIG_BEGIN (R101). -/
def trigBeginEnabled (s : State) : Bool := s.seqPhase == .idle

/-- The row of R203 for TRIG_END (R102). -/
def trigEndEnabled (s : State) : Bool := s.seqPhase == .pulse && s.seqDelay == 0

/-- The row of R203 for ARM (R121). -/
def armEnabled (s : State) : Bool := s.seqPhase == .arming

/-- The row of R203 for TEARDOWN (R201). -/
def teardownEnabled (s : State) : Bool := s.seqPhase == .wait && s.cycleComplete

/-- The row of R203 for QUIET_END (R202). -/
def quietEndEnabled (s : State) : Bool := s.seqPhase == .quiet && s.seqDelay == 0

/-- The enabling table of R203: the internal operation that is enabled, if there is one. -/
def enabledOp (s : State) : Option Instr :=
  match s.seqPhase with
  | .idle => some .trigBegin
  | .pulse => if s.seqDelay = 0 then some .trigEnd else none
  | .arming => some (.arm s.params.timeoutTicks)
  | .wait => if s.cycleComplete then some .teardown else none
  | .quiet => if s.seqDelay = 0 then some .quietEnd else none

/-- A quiescent state of R213: no internal operation is enabled. -/
def quiescent (s : State) : Bool := (enabledOp s).isNone

end Sys2Proof.Machine
end

