-- ==== Sys2Proof/Machine/Ops.lean ====
section
/-! DEFINITION. The procedures of the block: Reject (R310), Publish (R160), Disarm (R122), the three interrupt
handlers (R151 to R156, R181) behind the one operation `takeInterrupt` that takes an interrupt inside the step that
raises it (R301, R305, R307), Capture (R127), and the two shapes of a step, a stimulus that is admitted or rejected
(R13) and an internal operation that is enabled or not (R203). The block has no trap entry and no return from one
(R307, R308). -/

namespace Sys2Proof.Machine

/-- Reject of R310: the first code is kept, `FAULT` sticks, nothing else changes. -/
def reject (c : RejectCode) (s : State) : State :=
  { s with
    fault := true
    faultCode := if s.fault then s.faultCode else c.code }

/-- Publish of R160: the Distance, both latches and the byte position in one step (R67). -/
def publish (d : Ticks) (s : State) : State :=
  { s with
    distance := d
    pubHi := highByte d
    pubLo := lowByte d
    byteSel := .hi
    cycleComplete := true }

/-- Disarm of R122: the counter is stopped, not cleared. -/
def disarm (s : State) : State :=
  { s with
    tRun := false
    capEn := false
    cmpEn := false
    armedHigh := false }

/-- CaptureHandler in AwaitRise (R152). -/
def recordRise (v : Ticks) (s : State) : State :=
  { s with
    riseTicks := v
    edgePhase := nextEdgePhase s.edgePhase
    capPol := .falling
    measState := .awaitFall }

/-- CaptureHandler in AwaitFall (R153). -/
def resolveFall (v : Ticks) (s : State) : State :=
  publish (tickDistance s.riseTicks v)
    { s with
      edgePhase := nextEdgePhase s.edgePhase
      capPol := .rising
      measState := .resolved }

/-- CaptureHandler (R151): the two counted captures, and the discarded ones of R154. -/
def captureHandler (v : Ticks) (s : State) : State :=
  match s.measState with
  | .awaitRise => recordRise v s
  | .awaitFall => resolveFall v s
  | .idle | .resolved | .timedOut => s

/-- TimeoutHandler in an awaiting state (R155). -/
def resolveTimeout (s : State) : State :=
  publish 0 { s with edgePhase := 0, measState := .timedOut }

/-- TimeoutHandler (R155), discarding a match outside the awaiting states (R156). -/
def timeoutHandler (s : State) : State :=
  match s.measState with
  | .awaitRise | .awaitFall => resolveTimeout s
  | .idle | .resolved | .timedOut => s

/-- The byte-request handler `onByteRequested()` (R181): one byte served, the position toggled. -/
def byteRequestHandler (s : State) : State :=
  { s with
    byteSel := s.byteSel.toggle
    lastTx := servedByte s }

/-- Taking an interrupt (R301, R305, R307): its handler runs to completion inside the step, with no state saved,
no mode changed and nothing to return to. The capture handler is given the value in `ICR` (R127). -/
def takeInterrupt (irq : Interrupt) (s : State) : State :=
  match irq with
  | .capture => captureHandler s.icr s
  | .timeout => timeoutHandler s
  | .byteRequest => byteRequestHandler s

/-- Capture of R127: the latch, then the capture interrupt. -/
def capture (v : Ticks) (s : State) : State :=
  takeInterrupt .capture { s with icr := v }

/-- A stimulus step after decoding (R13): rejected with the code of its admission check, or accepted. -/
def admitOrReject (why : Option RejectCode) (s accepted : State) : Host.Outcome State Fault Refusal :=
  match why with
  | some c => .next (reject c s)
  | none => .next accepted

/-- An internal operation's step: taken where its row of R203 enables it, and no step at all elsewhere. -/
def whenEnabled (enabled : Bool) (mnemonic : String) (taken : State) : Host.Outcome State Fault Refusal :=
  if enabled then .next taken else .refused (.notEnabled mnemonic)

end Sys2Proof.Machine
end

