-- ==== Sys2Proof/Machine/CaptureTimer.lean ====
section
/-! DEFINITION. The edge capture timer (spec/42_capture_timer.md): ARM, TICK, RISE, FALL and STALE_RISE. -/

namespace Sys2Proof.Machine

/-- ARM (R121). The compare register takes the operand `timeoutTicks` (R30, R82), which the sequencer always
gives as `TIMEOUT_TICKS` (`enabledOp`; log entry 6). -/
def execArm (timeoutTicks : Ticks) (s : State) : Host.Outcome State Fault Refusal :=
  whenEnabled (armEnabled s) "ARM"
    { s with
      tcnt := 0
      tcmp := timeoutTicks
      icr := 0
      capPol := .rising
      capEn := true
      cmpEn := true
      tRun := true
      armedHigh := s.echoLvl
      riseTicks := 0
      edgePhase := 0
      cycleComplete := false
      measState := .awaitRise
      seqPhase := .wait }

/-- The counting half of TICK (R123), with the counter running: the increment, then the compare test on the
incremented value. -/
def countTick (s : State) : State :=
  let counted := { s with tcnt := nextCount s.tcnt }
  if compareMatch counted then takeInterrupt .timeout counted else counted

/-- TICK (R123). -/
def execTick (s : State) : Host.Outcome State Fault Refusal :=
  .next (if s.tRun then countTick s else s)

/-- RISE once admitted (R125). -/
def acceptRise (s : State) : State :=
  let risen := { s with echoLvl := true, armedHigh := false }
  if capturesRising risen then capture risen.tcnt risen else risen

/-- RISE (R125). -/
def execRise (s : State) : Host.Outcome State Fault Refusal :=
  admitOrReject (riseReject s) s (acceptRise s)

/-- FALL once admitted (R126). -/
def acceptFall (s : State) : State :=
  let fallen := { s with echoLvl := false, armedHigh := false }
  if capturesFalling fallen then capture fallen.tcnt fallen else fallen

/-- FALL (R126). -/
def execFall (s : State) : Host.Outcome State Fault Refusal :=
  admitOrReject (fallReject s) s (acceptFall s)

/-- STALE_RISE (R128). -/
def execStaleRise (v : Ticks) (s : State) : Host.Outcome State Fault Refusal :=
  admitOrReject (staleReject s) s (capture v { s with armedHigh := false })

end Sys2Proof.Machine
end

