-- ==== Sys2Proof/Machine/Publisher.lean ====
section
/-! DEFINITION. The distance publisher and serial slave (spec/44_publisher.md): BYTE. -/

namespace Sys2Proof.Machine

/-- BYTE (R181): the byte request is taken in every state (R187). The byte the master shifts in is ignored
(R186). -/
def execByte (_mosi : Byte) (s : State) : Host.Outcome State Fault Refusal :=
  .next (takeInterrupt .byteRequest s)

end Sys2Proof.Machine
end

