-- ==== Sys2Proof/Machine/PulseEmitter.lean ====
section
/-! DEFINITION. The pulse emitter (spec/41_pulse_emitter.md): TRIG_BEGIN, TRIG_END and USTICK. -/

namespace Sys2Proof.Machine

/-- TRIG_BEGIN (R101). -/
def execTrigBegin (s : State) : Host.Outcome State Fault Refusal :=
  whenEnabled (trigBeginEnabled s) "TRIG_BEGIN"
    { s with
      trig := true
      seqDelay := s.params.trigPulseUs
      seqPhase := .pulse }

/-- TRIG_END (R102). -/
def execTrigEnd (s : State) : Host.Outcome State Fault Refusal :=
  whenEnabled (trigEndEnabled s) "TRIG_END"
    { s with
      trig := false
      seqPhase := .arming }

/-- USTICK (R103). -/
def execUstick (s : State) : Host.Outcome State Fault Refusal :=
  .next { s with seqDelay := countDown s.seqDelay }

end Sys2Proof.Machine
end

