-- ==== Sys2Proof/Machine/Reset.lean ====
section
/-! DEFINITION. Reset (spec/70_reset_and_hazards.md): RESET. -/

namespace Sys2Proof.Machine

/-- RESET (R400): every register of R43 but `ECHO_LVL`, which follows the echo line. -/
def execReset (s : State) : Host.Outcome State Fault Refusal :=
  .next
    { s with
      seqPhase := .idle, seqDelay := 0, trig := false
      measState := .idle, edgePhase := 0, cycleComplete := false
      riseTicks := 0, distance := 0
      tcnt := 0, tcmp := 0, icr := 0
      tRun := false, capEn := false, cmpEn := false, capPol := .rising, armedHigh := false
      pubHi := 0, pubLo := 0, byteSel := .hi, lastTx := 0
      fault := false, faultCode := 0 }

end Sys2Proof.Machine
end

