-- ==== Sys2Proof/Machine/Sequencer.lean ====
section
/-! DEFINITION. The cycle sequencer (spec/45_main_loop.md): TEARDOWN and QUIET_END. -/

namespace Sys2Proof.Machine

/-- TEARDOWN (R201). -/
def execTeardown (s : State) : Host.Outcome State Fault Refusal :=
  whenEnabled (teardownEnabled s) "TEARDOWN"
    { disarm s with
      edgePhase := 0
      cycleComplete := false
      measState := .idle
      seqDelay := s.params.quietUs
      seqPhase := .quiet }

/-- QUIET_END (R202). -/
def execQuietEnd (s : State) : Host.Outcome State Fault Refusal :=
  whenEnabled (quietEndEnabled s) "QUIET_END" { s with seqPhase := .idle }

end Sys2Proof.Machine
end

