-- ==== Sys2Proof/Machine/Dispatch.lean ====
section
/-! DEFINITION. The meaning of each operation of R83. -/

namespace Sys2Proof.Machine

def exec (i : Instr) (s : State) : Host.Outcome State Fault Refusal :=
  match i with
  | .tick => Sys2Proof.Machine.execTick s
  | .rise => Sys2Proof.Machine.execRise s
  | .fall => Sys2Proof.Machine.execFall s
  | .staleRise v => Sys2Proof.Machine.execStaleRise v s
  | .byte mosi => Sys2Proof.Machine.execByte mosi s
  | .ustick => Sys2Proof.Machine.execUstick s
  | .reset => Sys2Proof.Machine.execReset s
  | .trigBegin => Sys2Proof.Machine.execTrigBegin s
  | .trigEnd => Sys2Proof.Machine.execTrigEnd s
  | .arm timeoutTicks => Sys2Proof.Machine.execArm timeoutTicks s
  | .teardown => Sys2Proof.Machine.execTeardown s
  | .quietEnd => Sys2Proof.Machine.execQuietEnd s

end Sys2Proof.Machine
end

