-- ==== Sys2Proof/Machine/Schedule.lean ====
section
/-! DEFINITION. One step of the transition system: the scheduling law (R210) over the schedule State carries, the
stimulus step (R85, R310), the sequencer's step (R203), the trace (R88), and how a word is placed so that the next
step runs it. -/

namespace Sys2Proof.Machine

/-- The outcome R88 records of a stimulus step with word `w` in state `s`. -/
def stimulusOutcome (w : Word) (s : State) : StimulusOutcome :=
  match decodePort w with
  | .error c => .rejected c
  | .ok i =>
    match admissionReject i s with
    | some c => .rejected c
    | none => .accepted (emitMiso i s)

/-- Recording a step in the trace (R88). -/
def recorded (ev : TraceEvent) : Host.Outcome State Fault Refusal → Host.Outcome State Fault Refusal
  | .next s => .next { s with trace := ev :: s.trace }
  | .fault r => .fault r
  | .refused r => .refused r

/-- A stimulus step (R6, R85): decode, then the dispatched rule, or the rejection of the decoder. -/
def stimulusStep (w : Word) (s : State) : Host.Outcome State Fault Refusal :=
  recorded (.stimulus w (stimulusOutcome w s))
    (match decodePort w with
     | .error c => .next (reject c s)
     | .ok i => exec i s)

/-- The sequencer's turn: the enabled internal operation (R203), recorded as its word (R88). Where none is enabled
the sequencer waits, and nothing changes (R204, R213; log entry 2). -/
def sequencerStep (s : State) : Host.Outcome State Fault Refusal :=
  match enabledOp s with
  | some i => recorded (.internal (encode i)) (exec i s)
  | none => .next s

/-- The scheduling law (R210): the next choice of the schedule is taken. With no choice left the environment
presents nothing and it is the sequencer's turn. -/
def takeStep (s : State) : Host.Outcome State Fault Refusal :=
  match s.schedule with
  | .stimulus w :: rest => stimulusStep w { s with schedule := rest }
  | .sequencer :: rest => sequencerStep { s with schedule := rest }
  | [] => sequencerStep s

/-- The state in which R203 enables the internal operation `i`: its phase, and the counter, flag or parameter its
row reads. A stimulus needs nothing. -/
def enableFor (i : Instr) (s : State) : State :=
  match i with
  | .trigBegin => { s with seqPhase := .idle }
  | .trigEnd => { s with seqPhase := .pulse, seqDelay := 0 }
  | .arm t => { s with seqPhase := .arming, params := { s.params with timeoutTicks := t } }
  | .teardown => { s with seqPhase := .wait, cycleComplete := true }
  | .quietEnd => { s with seqPhase := .quiet, seqDelay := 0 }
  | .tick | .rise | .fall | .staleRise _ | .byte _ | .ustick | .reset => s

/-- Placing a word of R83 so that the very next step runs it. A stimulus word is presented at the stimulus port
next. An internal word is never presented: it is the sequencer's turn next, in the state that enables its
operation (log entry 7). -/
def placeWord (s : State) (nbits w : Nat) : State :=
  let word : Word := BitVec.ofNat 32 (w % 2 ^ nbits)
  match decodeWord word with
  | .ok i =>
    match i.opClass with
    | .stimulus => { s with schedule := .stimulus word :: s.schedule }
    | .internal => enableFor i { s with schedule := .sequencer :: s.schedule }
  | .error _ => { s with schedule := .stimulus word :: s.schedule }

end Sys2Proof.Machine
end

