-- ==== Sys2Proof/Machine/Step.lean ====
section
/-! DEFINITION. The step function (R6, R210) and the placing of a word for the next step. -/

namespace Sys2Proof.Machine

/-- One step of the block: a stimulus step or an internal step (R6), as the schedule says (R210). -/
def step (s : State) : Host.Outcome State Fault Refusal := takeStep s

/-- `s` with the word whose bits are `w` placed so that the next step runs it. -/
def State.withFetchWord (s : State) (nbits w : Nat) : State := placeWord s nbits w

end Sys2Proof.Machine
end

