-- ==== Sys2Proof/Machine/Assembler.lean ====
section
/-! DEFINITION. The textual form of stimulus programs and traces (R89) and the pseudo-instructions (R90). It is the
spec's notation for words; the block reads none of it. -/

namespace Sys2Proof.Machine

/-- One line of a stimulus program (R89, R90). -/
inductive AsmLine where
  /-- an empty line, or a comment alone -/
  | blank
  /-- a stimulus or, in a trace, an internal operation, with its operand (zero where absent) -/
  | op (o : Opcode) (operand : BitVec 16)
  /-- `.word n`: the raw word, unchanged -/
  | word (w : Word)
  /-- `TICK n` -/
  | tickRun (n : Nat)
  /-- `USTICK n` -/
  | ustickRun (n : Nat)
  /-- `POLL` -/
  | poll
  /-- `ECHO a, w` -/
  | echo (a w : Nat)
  /-- `WAIT_PULSE` -/
  | waitPulse
  /-- `WAIT_QUIET` -/
  | waitQuiet
  deriving DecidableEq, Repr

/-- The expansions of R89 and R90. -/
def AsmLine.expand (p : Params) : AsmLine → List Word
  | .blank => []
  | .op o operand => [joinFields o.toByte 0 operand]
  | .word w => [w]
  | .tickRun n => List.replicate n (encode .tick)
  | .ustickRun n => List.replicate n (encode .ustick)
  | .poll => [encode (.byte 0), encode (.byte 0)]
  | .echo a w =>
    List.replicate a (encode .tick) ++ [encode .rise] ++ List.replicate w (encode .tick) ++ [encode .fall]
  | .waitPulse => List.replicate p.trigPulseUs.toNat (encode .ustick)
  | .waitQuiet => List.replicate p.quietUs.toNat (encode .ustick)

/-- The words of a program. -/
def assembleLines (p : Params) (lines : List AsmLine) : List Word :=
  lines.flatMap (AsmLine.expand p)

/-- The mnemonic of an operation (R83), with the leading `*` of an internal one (R89). -/
def Opcode.text : Opcode → String
  | .tick => "TICK"
  | .rise => "RISE"
  | .fall => "FALL"
  | .staleRise => "STALE_RISE"
  | .byte => "BYTE"
  | .ustick => "USTICK"
  | .reset => "RESET"
  | .trigBegin => "*TRIG_BEGIN"
  | .trigEnd => "*TRIG_END"
  | .arm => "*ARM"
  | .teardown => "*TEARDOWN"
  | .quietEnd => "*QUIET_END"

/-- The form takes an operand (R89: forms SV, SB and SA). -/
def takesOperand (o : Opcode) : Bool :=
  match o.form with
  | .s0 => false
  | .sb | .sv | .sa => true

/-- The text of one operation (R89). -/
def instrText (i : Instr) : String :=
  if takesOperand i.opcode then Opcode.text i.opcode ++ " #" ++ toString i.imm.toNat else Opcode.text i.opcode

/-- The value of a decimal digit. -/
def decimalDigit? (c : Char) : Option Nat :=
  if '0' ≤ c ∧ c ≤ '9' then some (c.toNat - '0'.toNat) else none

/-- The value of a hexadecimal digit. -/
def hexDigit? (c : Char) : Option Nat :=
  if '0' ≤ c ∧ c ≤ '9' then some (c.toNat - '0'.toNat)
  else if 'a' ≤ c ∧ c ≤ 'f' then some (c.toNat - 'a'.toNat + 10)
  else if 'A' ≤ c ∧ c ≤ 'F' then some (c.toNat - 'A'.toNat + 10)
  else none

/-- The digits of a number in a base, read after `acc`. -/
def digits? (digit? : Char → Option Nat) (base : Nat) : Nat → List Char → Option Nat
  | acc, [] => some acc
  | acc, c :: cs =>
    match digit? c with
    | some d => digits? digit? base (acc * base + d) cs
    | none => none

/-- A number, decimal or `0x` hexadecimal (R89). -/
def number? (cs : List Char) : Option Nat :=
  match cs with
  | [] => none
  | '0' :: 'x' :: c :: rest => digits? hexDigit? 16 0 (c :: rest)
  | c :: rest => digits? decimalDigit? 10 0 (c :: rest)

/-- An operand, `#n` with `n` of 16 bits (R89). -/
def operand? (cs : List Char) : Option (BitVec 16) :=
  match cs with
  | '#' :: rest =>
    match number? rest with
    | some n => if n < 2 ^ 16 then some (BitVec.ofNat 16 n) else none
    | none => none
  | _ => none

/-- A line up to its comment (R89). -/
def beforeComment : List Char → List Char
  | [] => []
  | c :: cs => if c = ';' then [] else c :: beforeComment cs

/-- The tokens of a line: blanks, tabs and the comma of `ECHO a, w` separate them. -/
def tokensAux : List Char → List Char → List (List Char)
  | [], [] => []
  | [], cur => [cur.reverse]
  | c :: cs, cur =>
    if c = ' ' ∨ c = '\t' ∨ c = ',' then
      match cur with
      | [] => tokensAux cs []
      | _ => cur.reverse :: tokensAux cs []
    else tokensAux cs (c :: cur)

/-- The tokens of a line, its comment left out. -/
def tokens (line : List Char) : List (List Char) := tokensAux (beforeComment line) []

/-- The operation a mnemonic names; an internal one only where a trace is read (R89). -/
def mnemonic? (inTrace : Bool) (cs : List Char) : Option Opcode :=
  (Opcode.all.filter fun o => inTrace || o.opClass == .stimulus).find? fun o => (Opcode.text o).toList == cs

/-- A line with a mnemonic and at most one operand. -/
def opLine? (inTrace : Bool) (name : List Char) (args : List (List Char)) : Option AsmLine :=
  match mnemonic? inTrace name, args with
  | some o, [] => some (.op o 0)
  | some o, [a] => if takesOperand o then (operand? a).map (.op o) else none
  | _, _ => none

/-- One line of a program, or of a trace (R89, R90); `none` where it has no reading. -/
def parseTokens (inTrace : Bool) (ts : List (List Char)) : Option AsmLine :=
  match ts with
  | [] => some .blank
  | name :: args =>
    if name = ".word".toList then
      match args with
      | [n] => (number? n).bind fun v => if v < 2 ^ 32 then some (.word (BitVec.ofNat 32 v)) else none
      | _ => none
    else if name = "POLL".toList ∧ args = [] then some .poll
    else if name = "WAIT_PULSE".toList ∧ args = [] then some .waitPulse
    else if name = "WAIT_QUIET".toList ∧ args = [] then some .waitQuiet
    else if name = "ECHO".toList then
      match args with
      | [a, w] =>
        match digits? decimalDigit? 10 0 a, digits? decimalDigit? 10 0 w with
        | some a', some w' => some (.echo a' w')
        | _, _ => none
      | _ => none
    else if name = "TICK".toList ∧ args ≠ [] then
      match args with
      | [n] => (digits? decimalDigit? 10 0 n).map .tickRun
      | _ => none
    else if name = "USTICK".toList ∧ args ≠ [] then
      match args with
      | [n] => (digits? decimalDigit? 10 0 n).map .ustickRun
      | _ => none
    else opLine? inTrace name args

/-- The lines of a text, split at line ends. -/
def linesAux : List Char → List Char → List (List Char)
  | [], cur => [cur.reverse]
  | c :: cs, cur => if c = '\n' then cur.reverse :: linesAux cs [] else linesAux cs (c :: cur)

/-- Every line of a text, or `none` where one has no reading. -/
def parseText (inTrace : Bool) (text : List Char) : Option (List AsmLine) :=
  (linesAux text []).mapM fun l => parseTokens inTrace (tokens l)

/-- The words of a stimulus program's text under a configuration (R89, R90). -/
def assemble (p : Params) (text : List Char) : Option (List Word) :=
  (parseText false text).map (assembleLines p)

/-- The words a trace's text stands for, internal operations included (R88, R89). -/
def assembleTrace (p : Params) (text : List Char) : Option (List Word) :=
  (parseText true text).map (assembleLines p)

/-- The moves of a stimulus program under the eager schedule of spec/95_test_vectors.md: before the first stimulus
and after each one the enabled internal operations are taken until none is left. From a state with the couplings of
R52 to R57 at most three follow one another (TEARDOWN, QUIET_END, TRIG_BEGIN); a turn left over changes nothing. -/
def eagerMoves (ws : List Word) : List Move :=
  List.replicate 3 .sequencer ++ ws.flatMap fun w => .stimulus w :: List.replicate 3 .sequencer

end Sys2Proof.Machine
end

