-- ==== Sys2Proof/Safety.lean ====
section
/-! DEFINITION. The terms claims use: the contract of R310, the launch premise of R402, the couplings of R52 to
R57, runs over a list of moves and infinite runs with the fairness and the duties of R211 and R326, and the bytes a
trace emits. -/

namespace Sys2Proof.Safety

open Sys2Proof.Machine

/-- Inside the block's contract: no stimulus has been rejected since the last RESET (R310). -/
def InContract (s : State) : Prop := s.fault = false

/-- The launch premise `CleanLaunch(params, echo0)` of R402: the parameters satisfy R9 and the state is the one
RESET leaves, with `ECHO_LVL = echo0`, whatever is scheduled. -/
def CleanLaunch (p : Params) (echo0 : Bool) (s : State) : Prop :=
  p.wf = true ∧ s = { State.afterReset p echo0 with schedule := s.schedule }

/-- Phase coupling (R52). -/
def PhaseCoupled (s : State) : Prop :=
  (s.seqPhase = .wait ↔ s.measState ≠ .idle)
    ∧ (s.tRun = true ↔ s.seqPhase = .wait)
    ∧ (s.capEn = true ↔ s.seqPhase = .wait)
    ∧ (s.cmpEn = true ↔ s.seqPhase = .wait)
    ∧ (s.trig = true ↔ s.seqPhase = .pulse)

/-- EdgePhase coupling (R53). -/
def EdgePhaseCoupled (s : State) : Prop :=
  (s.edgePhase = 1 ↔ s.measState = .awaitFall)
    ∧ (s.edgePhase = 2 ↔ s.measState = .resolved)
    ∧ s.edgePhase ≠ 3
    ∧ (s.cycleComplete = true ↔ s.measState = .resolved ∨ s.measState = .timedOut)

/-- Polarity coupling (R54). -/
def PolarityCoupled (s : State) : Prop :=
  (s.measState = .awaitRise → s.capPol = .rising)
    ∧ (s.measState = .awaitFall → s.capPol = .falling)
    ∧ (s.measState = .resolved → s.capPol = .rising)

/-- The counter bound of R55: in an awaiting state `TCNT < TCMP = TIMEOUT_TICKS`. -/
def CounterBounded (s : State) : Prop :=
  s.measState.awaiting = true → s.tcnt < s.tcmp ∧ s.tcmp = s.params.timeoutTicks

/-- Pair coupling (R56). -/
def PairCoupled (s : State) : Prop := pair s.pubHi s.pubLo = s.distance

/-- Delay coupling (R57), with R41 and R42's coupling of the two fault registers. -/
def DelayCoupled (s : State) : Prop :=
  (s.seqPhase = .idle ∨ s.seqPhase = .arming ∨ s.seqPhase = .wait → s.seqDelay = 0)
    ∧ (s.armedHigh = true → s.seqPhase = .wait ∧ s.echoLvl = true)
    ∧ (s.fault = false ↔ s.faultCode = 0)

/-- What R183 gives as the reason of pair coherence: `BYTE_SEL = LO` arises only from a BYTE that served the high
byte of the pair still held. -/
def PositionCoupled (s : State) : Prop := s.byteSel = .lo → s.lastTx = s.pubHi

/-- The couplings of R52 to R57 together, in a block whose configuration R9 admits. -/
structure Coupled (s : State) : Prop where
  config : s.params.wf = true
  phase : PhaseCoupled s
  edge : EdgePhaseCoupled s
  polarity : PolarityCoupled s
  counter : CounterBounded s
  pairs : PairCoupled s
  delay : DelayCoupled s
  position : PositionCoupled s

/-- What an operation says of a stale capture in the current cycle: STALE_RISE makes one, ARM and RESET start
afresh, every other operation says nothing. -/
def staleEffect : Instr → Option Bool
  | .staleRise _ => some true
  | .arm _ => some false
  | .reset => some false
  | .tick | .rise | .fall | .byte _ | .ustick | .trigBegin | .trigEnd | .teardown | .quietEnd => none

/-- The same of an entry of the trace; a rejected stimulus says nothing. -/
def staleMark : TraceEvent → Option Bool
  | .internal w =>
    match decodeWord w with
    | .ok i => staleEffect i
    | .error _ => none
  | .stimulus w (.accepted _) =>
    match decodePort w with
    | .ok i => staleEffect i
    | .error _ => none
  | .stimulus _ (.rejected _) => none

/-- An accepted STALE_RISE stands in the trace (newest first) after the last ARM and the last RESET. -/
def staleSinceArm : List TraceEvent → Bool
  | [] => false
  | ev :: rest => (staleMark ev).getD (staleSinceArm rest)

/-- The bounds of R55 and R158 on the captured values, for cycles with no stale capture (the exception R55 makes):
the rising capture is at most the counter, and a resolved Distance is below `TIMEOUT_TICKS`; a timed-out cycle's is
zero. -/
def RangeBounded (s : State) : Prop :=
  (s.measState = .awaitFall → staleSinceArm s.trace = false → s.riseTicks ≤ s.tcnt)
    ∧ (s.measState = .resolved → staleSinceArm s.trace = false → s.distance < s.params.timeoutTicks)
    ∧ (s.measState = .timedOut → s.distance = 0)

/-- The words of the operation code `opc` at the stimulus port (R82, R85): with every reserved bit zero, `read`
gives the stimulus; with one of them set, the word is rejected with code 3. `zero` is the part of `imm` the form
requires to be zero. -/
def PortWord (opc : BitVec 8) (zero : BitVec 16) (read : BitVec 16 → Instr) : Prop :=
  ∀ w : Word, opcField w = opc →
    decodePort w = if rsvField w = 0 ∧ immField w &&& zero = 0 then .ok (read (immField w)) else .error .field

/-- The word of the internal operation `i`: it stands for `i` in a trace (R88) and is rejected with code 2 at the
stimulus port (R85). -/
def TraceWord (w : Word) (i : Instr) : Prop :=
  encode i = w ∧ decodeWord w = .ok i ∧ decodePort w = .error .internal

/-- The state a rejected stimulus step leaves: `FAULT`, `FAULT_CODE` and the trace, and nothing else. -/
def afterReject (c : RejectCode) (w : Word) (rest : List Move) (s : State) : State :=
  { s with
    fault := true
    faultCode := if s.fault then s.faultCode else c.code
    schedule := rest
    trace := .stimulus w (.rejected c) :: s.trace }

/-- The move presents the stimulus `i` at the stimulus port. -/
def presents (i : Instr) : Move → Bool
  | .stimulus w =>
    match decodePort w with
    | .ok j => j == i
    | .error _ => false
  | .sequencer => false

/-- The move presents a BYTE at the stimulus port, whatever byte the master shifts in. -/
def presentsByte : Move → Bool
  | .stimulus w =>
    match decodePort w with
    | .ok (.byte _) => true
    | _ => false
  | .sequencer => false

/-- The operation the next step of `s` performs: the stimulus presented, if it decodes and is admitted, or, on the
sequencer's turn, the enabled internal operation. -/
def performed (s : State) : Option Instr :=
  match s.schedule with
  | .stimulus w :: _ =>
    match decodePort w with
    | .ok i => if (admissionReject i s).isNone then some i else none
    | .error _ => none
  | .sequencer :: _ => enabledOp s
  | [] => enabledOp s

/-- The move's step calls Publish in state `s` (R153, R155, R160). -/
def publishes (m : Move) (s : State) : Bool :=
  match m with
  | .stimulus w =>
    match decodePort w with
    | .ok i =>
      match raisedInterrupt i s with
      | some .timeout => s.measState.awaiting
      | some .capture => s.measState == .awaitFall
      | _ => false
    | .error _ => false
  | .sequencer => false

/-- One step of the block in which the scheduling law's choice is `m` (R210). -/
def moveStep (m : Move) (s : State) : Host.Outcome State Fault Refusal :=
  step { s with schedule := [m] }

/-- A finite run: the moves of `ms` taken in order lead from `s` to `t`. -/
def Runs : List Move → State → State → Prop
  | [], s, t => s = t
  | m :: ms, s, t => ∃ u, moveStep m s = .next u ∧ Runs ms u t

/-- A finite run in which no step publishes and no RESET is presented. -/
def RunsUnpublished : List Move → State → State → Prop
  | [], s, t => s = t
  | m :: ms, s, t =>
    publishes m s = false ∧ presents .reset m = false ∧ ∃ u, moveStep m s = .next u ∧ RunsUnpublished ms u t

/-- How often the moves present the stimulus `i`. -/
def countOf (i : Instr) (ms : List Move) : Nat := ms.countP (presents i)

/-- No move presents the stimulus `i`. -/
def Without (i : Instr) (ms : List Move) : Prop := ∀ m ∈ ms, presents i m = false

/-- The byte a step emitted to the bus master (R47, R88). -/
def eventByte : TraceEvent → Option Byte
  | .stimulus _ (.accepted b) => b
  | .stimulus _ (.rejected _) => none
  | .internal _ => none

/-- The bytes emitted over a trace, oldest first (the trace is kept newest first). -/
def emitted (tr : List TraceEvent) : List Byte := tr.reverse.filterMap eventByte

/-- `n` bytes of the alternation of R182 from position `sel` of a pair. -/
def alternation (hi lo : Byte) : ByteSel → Nat → List Byte
  | _, 0 => []
  | .hi, n + 1 => hi :: alternation hi lo .lo n
  | .lo, n + 1 => lo :: alternation hi lo .hi n

/-- The position after `n` bytes. -/
def positionAfter : ByteSel → Nat → ByteSel
  | sel, 0 => sel
  | sel, n + 1 => positionAfter sel.toggle n

/-- An infinite run: move `μ n` takes state `σ n` to `σ (n + 1)` (R210, R211). -/
def IsRun (μ : Nat → Move) (σ : Nat → State) : Prop :=
  ∀ n, moveStep (μ n) (σ n) = .next (σ (n + 1))

/-- Weak fairness of the sequencer (R211): an internal operation enabled from some step onward is eventually
taken. -/
def WeaklyFair (μ : Nat → Move) (σ : Nat → State) : Prop :=
  ∀ n, (∀ m, n ≤ m → enabledOp (σ m) ≠ none) → ∃ m, n ≤ m ∧ μ m = .sequencer

/-- The duty of the capture-timer clock (R326): TICKs keep arriving while `T_RUN = 1`. -/
def TickDuty (μ : Nat → Move) (σ : Nat → State) : Prop :=
  ∀ n, (∀ m, n ≤ m → (σ m).tRun = true) → ∃ m, n ≤ m ∧ presents .tick (μ m) = true

/-- The duty of the microsecond time base (R326): USTICKs keep arriving while `SEQ_DELAY > 0`. -/
def UstickDuty (μ : Nat → Move) (σ : Nat → State) : Prop :=
  ∀ n, (∀ m, n ≤ m → (σ m).seqDelay ≠ 0) → ∃ m, n ≤ m ∧ presents .ustick (μ m) = true

end Sys2Proof.Safety
end

