-- ==== Sys2Proof/Certificates/Slice0/Obligations.lean ====
section
/-! DEFINITION. The statements about the model that follow from the rules of spec/. Every equation
`exec i s = .next { s with … }` is also the frame of the instruction: every field it does not name keeps its
value. The block has no memory (R60), so no statement has a memory clause. -/

open Sys2Proof Sys2Proof.Machine Sys2Proof.Safety

/-! ## Encoding -/

/-- Words written out from the opcode map (R83) and the examples of R88 and R89 decode to what they stand for. -/
def Obligations.OpcodeMapWordsDecode : Prop :=
  decodePort 0x01000000 = .ok .tick ∧ decodePort 0x02000000 = .ok .rise ∧ decodePort 0x03000000 = .ok .fall
    ∧ decodePort 0x04001234 = .ok (.staleRise 0x1234) ∧ decodePort 0x050000AB = .ok (.byte 0xAB)
    ∧ decodePort 0x06000000 = .ok .ustick ∧ decodePort 0x07000000 = .ok .reset
    ∧ decodeWord 0x10000000 = .ok .trigBegin ∧ decodeWord 0x11000000 = .ok .trigEnd
    ∧ decodeWord 0x12009C40 = .ok (.arm 40000) ∧ decodeWord 0x13000000 = .ok .teardown
    ∧ decodeWord 0x14000000 = .ok .quietEnd

/-- Decoding the word of any operation gives it back, at every operand. -/
def Obligations.DecodeOfEncodeIsTheInstruction : Prop :=
  ∀ i : Instr, decodeWord (encode i) = .ok i

/-- Every word that decodes is the word of what it decodes to: no word has a second spelling. -/
def Obligations.EncodeOfDecodeIsTheWord : Prop :=
  ∀ (w : Word) (i : Instr), decodeWord w = .ok i → encode i = w

/-- The decoder accepts a word as an operation exactly where the word matches the operation's row of the opcode
table under its mask, and no word matches two rows. -/
def Obligations.DecoderFollowsTheOpcodeTable : Prop :=
  (∀ (w : Word) (o : Opcode), (∃ i, decodeWord w = .ok i ∧ i.opcode = o) ↔ w &&& o.mask = o.pattern)
    ∧ ∀ (w : Word) (o o' : Opcode), w &&& o.mask = o.pattern → w &&& o'.mask = o'.pattern → o = o'

/-- The stimulus port accepts the words of the stimuli and no others. -/
def Obligations.PortAcceptsExactlyTheStimulusWords : Prop :=
  ∀ (w : Word) (i : Instr), decodePort w = .ok i ↔ decodeWord w = .ok i ∧ i.opClass = .stimulus

/-- R86: a reserved opcode is rejected with code 1, an internal one at the port with code 2, a non-zero field its
form requires to be zero with code 3, and the step changes nothing but the fault registers. -/
def Obligations.PortRejectsReservedInternalAndMalformed : Prop :=
  ∀ (s : State) (w : Word) (rest : List Move), s.schedule = .stimulus w :: rest →
    let opc := (opcField w).toNat
    ((opc = 0x00 ∨ (0x08 ≤ opc ∧ opc ≤ 0x0F) ∨ 0x15 ≤ opc) → step s = .next (afterReject .opcode w rest s))
      ∧ ((0x10 ≤ opc ∧ opc ≤ 0x14) → step s = .next (afterReject .internal w rest s))
      ∧ ((0x01 ≤ opc ∧ opc ≤ 0x07)
          → (rsvField w ≠ 0 ∨ (opc = 0x05 ∧ 0x100 ≤ (immField w).toNat) ∨ (opc ≠ 0x04 ∧ opc ≠ 0x05 ∧ immField w ≠ 0))
          → step s = .next (afterReject .field w rest s))

/-! ## One step -/

/-- A step whose choice is a stimulus word that decodes runs the stimulus and records it. -/
def Obligations.StepRunsTheDecodedStimulus : Prop :=
  ∀ (s t : State) (w : Word) (rest : List Move) (i : Instr),
    s.schedule = .stimulus w :: rest → decodePort w = .ok i → exec i { s with schedule := rest } = .next t →
      step s = .next { t with trace := .stimulus w (stimulusOutcome w { s with schedule := rest }) :: t.trace }

/-- A step on the sequencer's turn runs the enabled operation, an operation of the configuration, and records its
word; with none enabled nothing changes (the stutter is the model's choice, log entry 2). -/
def Obligations.StepRunsTheEnabledOperation : Prop :=
  ∀ (s : State) (rest : List Move), (s.schedule = .sequencer :: rest ∨ (s.schedule = [] ∧ rest = [])) →
    (∀ (i : Instr) (t : State), enabledOp s = some i → exec i { s with schedule := rest } = .next t →
        i.wf s.params = true ∧ step s = .next { t with trace := .internal (encode i) :: t.trace })
      ∧ (enabledOp s = none → step s = .next { s with schedule := rest })

/-- A word of the opcode table placed with `withFetchWord` runs in the next step: a stimulus in the state it is
placed in, an internal operation in the state placing it prepares. -/
def Obligations.PlacedWordRunsNext : Prop :=
  ∀ (s : State) (i : Instr),
    (i.opClass = .stimulus → ∀ t, exec i s = .next t →
        step (s.withFetchWord 32 (encode i).toNat)
          = .next { t with trace := .stimulus (encode i) (stimulusOutcome (encode i) s) :: t.trace })
      ∧ (i.opClass = .internal → ∃ t, exec i (enableFor i s) = .next t
          ∧ step (s.withFetchWord 32 (encode i).toNat)
              = .next { t with trace := .internal (encode i) :: t.trace })

/-- From every state the next step has a next state: the block never halts, hangs, faults or refuses. -/
def Obligations.EveryStepHasANextState : Prop :=
  ∀ s : State, ∃ t, step s = .next t

/-- R203: the enabling table, row by row; and an internal operation of the configuration takes a step exactly where
the table enables it. -/
def Obligations.EnabledOperationFollowsTheTable : Prop :=
  ∀ s : State,
    (s.seqPhase = .idle → enabledOp s = some .trigBegin)
      ∧ (s.seqPhase = .pulse → s.seqDelay = 0 → enabledOp s = some .trigEnd)
      ∧ (s.seqPhase = .pulse → s.seqDelay ≠ 0 → enabledOp s = none)
      ∧ (s.seqPhase = .arming → enabledOp s = some (.arm s.params.timeoutTicks))
      ∧ (s.seqPhase = .wait → s.cycleComplete = true → enabledOp s = some .teardown)
      ∧ (s.seqPhase = .wait → s.cycleComplete = false → enabledOp s = none)
      ∧ (s.seqPhase = .quiet → s.seqDelay = 0 → enabledOp s = some .quietEnd)
      ∧ (s.seqPhase = .quiet → s.seqDelay ≠ 0 → enabledOp s = none)
      ∧ ∀ i : Instr, i.opClass = .internal → i.wf s.params = true →
          ((∃ t, exec i s = .next t) ↔ enabledOp s = some i)

/-- An internal operation asked for where its row of R203 does not hold is no step of the block: the model refuses
it by name (log entry 5). -/
def Obligations.DisabledOperationIsRefused : Prop :=
  ∀ s : State,
    (s.seqPhase ≠ .idle → exec .trigBegin s = .refused (.notEnabled "TRIG_BEGIN"))
      ∧ (¬ (s.seqPhase = .pulse ∧ s.seqDelay = 0) → exec .trigEnd s = .refused (.notEnabled "TRIG_END"))
      ∧ (s.seqPhase ≠ .arming → ∀ n, exec (.arm n) s = .refused (.notEnabled "ARM"))
      ∧ (¬ (s.seqPhase = .wait ∧ s.cycleComplete = true) → exec .teardown s = .refused (.notEnabled "TEARDOWN"))
      ∧ (¬ (s.seqPhase = .quiet ∧ s.seqDelay = 0) → exec .quietEnd s = .refused (.notEnabled "QUIET_END"))

/-! ## Each instruction -/

/-- R101: TRIG_BEGIN, enabled in IDLE alone, raises the trigger, loads the pulse width and enters PULSE. -/
def Obligations.TrigBeginStartsThePulse : Prop :=
  TraceWord 0x10000000 .trigBegin
    ∧ ∀ s : State,
        (enabledOp s = some .trigBegin ↔ s.seqPhase = .idle)
          ∧ (s.seqPhase = .idle →
              exec .trigBegin s = .next { s with trig := true, seqDelay := s.params.trigPulseUs, seqPhase := .pulse })

/-- R102: TRIG_END, enabled in PULSE with the delay run out, lowers the trigger and enters ARMING. -/
def Obligations.TrigEndEndsThePulse : Prop :=
  TraceWord 0x11000000 .trigEnd
    ∧ ∀ s : State,
        (enabledOp s = some .trigEnd ↔ s.seqPhase = .pulse ∧ s.seqDelay = 0)
          ∧ (s.seqPhase = .pulse → s.seqDelay = 0 →
              exec .trigEnd s = .next { s with trig := false, seqPhase := .arming })

/-- R103: USTICK counts the delay down to zero and never below, and changes nothing else. -/
def Obligations.UstickCountsTheDelayDown : Prop :=
  PortWord 0x06 0xFFFF (fun _ => .ustick)
    ∧ ∀ s : State,
        (s.seqDelay ≠ 0 → exec .ustick s = .next { s with seqDelay := s.seqDelay - 1 })
          ∧ (s.seqDelay = 0 → exec .ustick s = .next s)

/-- R121, with the compare register loaded from the operand; the operand the sequencer gives is `TIMEOUT_TICKS`. -/
def Obligations.ArmStartsTheMeasurement : Prop :=
  (∀ n : Ticks, TraceWord ((0x12 : BitVec 8) ++ (0x00 : BitVec 8) ++ n) (.arm n))
    ∧ ∀ s : State,
        (enabledOp s = some (.arm s.params.timeoutTicks) ↔ s.seqPhase = .arming)
          ∧ (s.seqPhase = .arming → ∀ n : Ticks,
              exec (.arm n) s = .next
                { s with
                  tcnt := 0, tcmp := n, icr := 0, capPol := .rising, capEn := true, cmpEn := true, tRun := true
                  armedHigh := s.echoLvl, riseTicks := 0, edgePhase := 0, cycleComplete := false
                  measState := .awaitRise, seqPhase := .wait })

/-- R122: Disarm writes the run bit, the two enables and `ARMED_HIGH`, and nothing else; after it no TICK counts and
no edge is captured, the stale one included (with R123, R125, R126 and R128). -/
def Obligations.DisarmStopsTheTimer : Prop :=
  ∀ s : State,
    disarm s = { s with tRun := false, capEn := false, cmpEn := false, armedHigh := false }
      ∧ exec .tick (disarm s) = .next (disarm s)
      ∧ (s.echoLvl = false → exec .rise (disarm s) = .next { disarm s with echoLvl := true })
      ∧ (s.echoLvl = true → exec .fall (disarm s) = .next { disarm s with echoLvl := false })
      ∧ ∀ v, exec (.staleRise v) (disarm s) = .next (reject .stale (disarm s))

/-- R123: TICK counts while the counter runs, and calls the timeout handler on the match of the incremented value. -/
def Obligations.TickCountsAndRaisesTheMatch : Prop :=
  PortWord 0x01 0xFFFF (fun _ => .tick)
    ∧ ∀ s : State,
        (s.tRun = false → exec .tick s = .next s)
          ∧ (s.tRun = true → ¬ (s.cmpEn = true ∧ s.tcnt + 1 = s.tcmp) →
              exec .tick s = .next { s with tcnt := s.tcnt + 1 })
          ∧ (s.tRun = true → s.cmpEn = true → s.tcnt + 1 = s.tcmp →
              exec .tick s = .next (timeoutHandler { s with tcnt := s.tcnt + 1 }))

/-- R125: RISE on a high line is rejected; on a low one it moves the level and is captured where rising captures are
enabled (`CaptureIsHandledByState` says what the capture does). -/
def Obligations.RiseIsCapturedOrOnlyTracked : Prop :=
  PortWord 0x02 0xFFFF (fun _ => .rise)
    ∧ ∀ s : State,
        (s.echoLvl = true → exec .rise s = .next (reject .edge s))
          ∧ (s.echoLvl = false → ¬ (s.capEn = true ∧ s.capPol = .rising) →
              exec .rise s = .next { s with echoLvl := true, armedHigh := false })
          ∧ (s.echoLvl = false → s.capEn = true → s.capPol = .rising →
              exec .rise s = .next (capture s.tcnt { s with echoLvl := true, armedHigh := false }))

/-- R126: FALL on a low line is rejected; on a high one it moves the level and is captured where falling captures are
enabled. -/
def Obligations.FallIsCapturedOrOnlyTracked : Prop :=
  PortWord 0x03 0xFFFF (fun _ => .fall)
    ∧ ∀ s : State,
        (s.echoLvl = false → exec .fall s = .next (reject .edge s))
          ∧ (s.echoLvl = true → ¬ (s.capEn = true ∧ s.capPol = .falling) →
              exec .fall s = .next { s with echoLvl := false, armedHigh := false })
          ∧ (s.echoLvl = true → s.capEn = true → s.capPol = .falling →
              exec .fall s = .next (capture s.tcnt { s with echoLvl := false, armedHigh := false }))

/-- R128, with the operand free: any captured value is admitted. -/
def Obligations.StaleRiseCapturesItsOperand : Prop :=
  PortWord 0x04 0x0000 .staleRise
    ∧ ∀ (s : State) (v : Ticks),
        (s.params.staleEdgeCapture = true ∧ s.armedHigh = true ∧ s.capEn = true ∧ s.capPol = .rising →
            exec (.staleRise v) s = .next (capture v { s with armedHigh := false }))
          ∧ (¬ (s.params.staleEdgeCapture = true ∧ s.armedHigh = true ∧ s.capEn = true ∧ s.capPol = .rising) →
            exec (.staleRise v) s = .next (reject .stale s))

/-- R127, R151 to R154: the latch and the capture handler in each state, Publish (R160) written out. -/
def Obligations.CaptureIsHandledByState : Prop :=
  ∀ (s : State) (v : Ticks),
    (s.measState = .awaitRise →
        capture v s =
          { s with
            icr := v, riseTicks := v, edgePhase := s.edgePhase + 1, capPol := .falling, measState := .awaitFall })
      ∧ (s.measState = .awaitFall →
        capture v s =
          { s with
            icr := v, edgePhase := s.edgePhase + 1, capPol := .rising, measState := .resolved
            distance := v - s.riseTicks
            pubHi := (v - s.riseTicks).extractLsb' 8 8, pubLo := (v - s.riseTicks).extractLsb' 0 8
            byteSel := .hi, cycleComplete := true })
      ∧ (s.measState = .idle ∨ s.measState = .resolved ∨ s.measState = .timedOut → capture v s = { s with icr := v })

/-- R155, R156: the timeout handler in each state, Publish (R160) written out. -/
def Obligations.TimeoutIsHandledByState : Prop :=
  ∀ s : State,
    (s.measState = .awaitRise ∨ s.measState = .awaitFall →
        timeoutHandler s =
          { s with
            edgePhase := 0, measState := .timedOut, distance := 0, pubHi := 0, pubLo := 0
            byteSel := .hi, cycleComplete := true })
      ∧ (s.measState = .idle ∨ s.measState = .resolved ∨ s.measState = .timedOut → timeoutHandler s = s)

/-- R160, its pseudocode. (Its example, 1400 giving 0x05 and 0x58, does not follow from it: log entry 8.) -/
def Obligations.PublishWritesTheWholePair : Prop :=
  ∀ (d : Ticks) (s : State),
    publish d s =
      { s with
        distance := d, pubHi := d.extractLsb' 8 8, pubLo := d.extractLsb' 0 8, byteSel := .hi
        cycleComplete := true }

/-- R181, R186, R187: in every state a BYTE serves the byte of its position, toggles the position, and leaves the
rest; the byte shifted in has no effect. -/
def Obligations.ByteServesAndToggles : Prop :=
  PortWord 0x05 0xFF00 (fun imm => .byte (imm.extractLsb' 0 8))
    ∧ ∀ (s : State) (mosi : Byte),
        (s.byteSel = .hi → exec (.byte mosi) s = .next { s with byteSel := .lo, lastTx := s.pubHi })
          ∧ (s.byteSel = .lo → exec (.byte mosi) s = .next { s with byteSel := .hi, lastTx := s.pubLo })

/-- A BYTE step emits exactly the byte it leaves in `LAST_TX`, in every state. -/
def Obligations.ByteStepEmitsItsByte : Prop :=
  ∀ (s : State) (w : Word) (rest : List Move) (mosi : Byte),
    s.schedule = .stimulus w :: rest → decodePort w = .ok (.byte mosi) →
      ∃ t, step s = .next t ∧ t.trace = .stimulus w (.accepted (some t.lastTx)) :: s.trace
        ∧ t.lastTx = (if s.byteSel = .hi then s.pubHi else s.pubLo)

/-- R201: TEARDOWN, enabled in WAIT with the cycle complete, disarms, returns to Idle and starts the quiet period; the
published value stays. -/
def Obligations.TeardownDisarmsAndStartsTheQuietPeriod : Prop :=
  TraceWord 0x13000000 .teardown
    ∧ (∀ s : State, enabledOp s = some .teardown ↔ s.seqPhase = .wait ∧ s.cycleComplete = true)
    ∧ ∀ s : State, s.seqPhase = .wait → s.cycleComplete = true →
        exec .teardown s = .next
          { s with
            tRun := false, capEn := false, cmpEn := false, armedHigh := false, edgePhase := 0, cycleComplete := false
            measState := .idle, seqDelay := s.params.quietUs, seqPhase := .quiet }

/-- R202: QUIET_END, enabled in QUIET with the delay run out, returns to IDLE and changes nothing else. -/
def Obligations.QuietEndReturnsToIdle : Prop :=
  TraceWord 0x14000000 .quietEnd
    ∧ (∀ s : State, enabledOp s = some .quietEnd ↔ s.seqPhase = .quiet ∧ s.seqDelay = 0)
    ∧ ∀ s : State, s.seqPhase = .quiet → s.seqDelay = 0 → exec .quietEnd s = .next { s with seqPhase := .idle }

/-- R400: every register but `ECHO_LVL` takes its reset value, in every state. -/
def Obligations.ResetWritesEveryRegisterButTheEchoLevel : Prop :=
  PortWord 0x07 0xFFFF (fun _ => .reset)
    ∧ ∀ s : State,
        exec .reset s = .next
          { s with
            seqPhase := .idle, seqDelay := 0, trig := false, measState := .idle, edgePhase := 0, cycleComplete := false
            riseTicks := 0, distance := 0, tcnt := 0, tcmp := 0, icr := 0, tRun := false, capEn := false, cmpEn := false
            capPol := .rising, armedHigh := false, pubHi := 0, pubLo := 0, byteSel := .hi, lastTx := 0
            fault := false, faultCode := 0 }

/-! ## Reset and launch -/

/-- RESET in a block configured by its parameters leaves the launch state at the level of the echo line, in which
TRIG_BEGIN is the enabled operation, both enables are off, the packed views read as the spec gives them and a BYTE is
served 0x00 (R188, R403). -/
def Obligations.ResetLeavesTheLaunchState : Prop :=
  ∀ s : State, ∃ t, exec .reset s = .next t
    ∧ t = { State.afterReset s.params s.echoLvl with schedule := s.schedule, trace := s.trace }
    ∧ enabledOp t = some .trigBegin ∧ t.capEn = false ∧ t.cmpEn = false
    ∧ status t = 0 ∧ tctrl t = (if s.echoLvl then 0x10 else 0x00)
    ∧ ∀ mosi, exec (.byte mosi) t = .next { t with byteSel := .lo, lastTx := 0 }

/-- R9: a configuration is admitted exactly within its ranges, and one outside them is refused as a whole. -/
def Obligations.LaunchAdmitsExactlyTheRanges : Prop :=
  ∀ (r : ParamRequest) (echo0 : Bool),
    ((1 ≤ r.timeoutTicks ∧ r.timeoutTicks ≤ 65535) ∧ (1 ≤ r.trigPulseUs ∧ r.trigPulseUs ≤ 65535)
          ∧ r.quietUs ≤ 65535 →
        launch r echo0 = .next (State.afterReset r.params echo0) ∧ r.params.wf = true
          ∧ r.params.timeoutTicks.toNat = r.timeoutTicks ∧ r.params.trigPulseUs.toNat = r.trigPulseUs
          ∧ r.params.quietUs.toNat = r.quietUs)
      ∧ (¬ ((1 ≤ r.timeoutTicks ∧ r.timeoutTicks ≤ 65535) ∧ (1 ≤ r.trigPulseUs ∧ r.trigPulseUs ≤ 65535)
          ∧ r.quietUs ≤ 65535) →
        launch r echo0 = .refused .configuration)

/-! ## Rejects -/

/-- R310: a rejected stimulus changes the two fault registers and nothing else, emits no byte, and keeps the block
running; an internal operation is never rejected. -/
def Obligations.RejectChangesOnlyTheFaultRegisters : Prop :=
  (∀ (c : RejectCode) (s : State),
      reject c s = { s with fault := true, faultCode := if s.fault then s.faultCode else c.code })
    ∧ (∀ (s : State) (w : Word) (rest : List Move) (c : RejectCode),
        s.schedule = .stimulus w :: rest → stimulusOutcome w { s with schedule := rest } = .rejected c →
          step s = .next (afterReject c w rest s) ∧ emitted [.stimulus w (.rejected c)] = [])
    ∧ ∀ (i : Instr) (s t : State), i.opClass = .internal → exec i s = .next t →
        t.fault = s.fault ∧ t.faultCode = s.faultCode

/-- R313 and R310's contract: RESET alone clears the fault registers, no later reject changes the code, and a step
leaves the contract exactly by rejecting its stimulus. -/
def Obligations.FaultIsStickyUntilReset : Prop :=
  ∀ s t : State, step s = .next t →
    (s.fault = true → performed s ≠ some .reset → t.fault = true ∧ t.faultCode = s.faultCode)
      ∧ (performed s = some .reset → t.fault = false ∧ t.faultCode = 0)
      ∧ (InContract s → (¬ InContract t ↔ ∃ w c, t.trace = .stimulus w (.rejected c) :: s.trace))

/-! ## The data path and the packed views -/

/-- R157: the exact difference where the falling capture is not below the rising one, the modulo-2^16 difference
where it is. -/
def Obligations.DistanceIsTheUnsignedDifference : Prop :=
  ∀ r f : Ticks,
    (r.toNat ≤ f.toNat → (tickDistance r f).toNat = f.toNat - r.toNat)
      ∧ (f.toNat < r.toNat → (tickDistance r f).toNat = f.toNat + 65536 - r.toNat)

/-- R62: the pair, high byte first, assembles to the value by `(first << 8) | second`. (The example R62 quotes, 1400
served as 5 then 88, is not an instance of the rule: `1400 & 0xFF` is 120; log entry 8.) -/
def Obligations.HighByteFirstRecoversTheValue : Prop :=
  ∀ d : Ticks,
    ((highByte d).zeroExtend 16 <<< 8) ||| (lowByte d).zeroExtend 16 = d ∧ pair (highByte d) (lowByte d) = d

/-- R44 and R45: every field of the two packed views, and their values in the state RESET leaves. -/
def Obligations.PackedViewsHoldTheirFields : Prop :=
  (∀ s : State,
    ((tctrl s).getLsbD 0 = s.tRun ∧ (tctrl s).getLsbD 1 = s.capEn ∧ (tctrl s).getLsbD 2 = s.cmpEn
        ∧ (tctrl s).getLsbD 3 = s.capPol.bit ∧ (tctrl s).getLsbD 4 = s.echoLvl ∧ (tctrl s).getLsbD 5 = s.armedHigh
        ∧ (tctrl s).extractLsb' 6 2 = 0)
      ∧ ((status s).extractLsb' 0 3 = s.measState.code ∧ (status s).extractLsb' 3 2 = s.edgePhase
        ∧ (status s).getLsbD 5 = s.cycleComplete ∧ (status s).getLsbD 6 = s.byteSel.bit
        ∧ (status s).getLsbD 7 = s.trig ∧ (status s).extractLsb' 8 3 = s.seqPhase.code
        ∧ (status s).getLsbD 11 = s.fault ∧ (status s).extractLsb' 12 3 = s.faultCode
        ∧ (status s).getLsbD 15 = false))
    ∧ ∀ p : Params, status (State.afterReset p false) = 0 ∧ status (State.afterReset p true) = 0
        ∧ tctrl (State.afterReset p false) = 0x00 ∧ tctrl (State.afterReset p true) = 0x10

/-- R90: the pseudo-instructions expand to the words the table gives. -/
def Obligations.PseudoInstructionsExpand : Prop :=
  ∀ (p : Params) (n a w : Nat),
    (AsmLine.tickRun n).expand p = List.replicate n 0x01000000
      ∧ (AsmLine.ustickRun n).expand p = List.replicate n 0x06000000
      ∧ AsmLine.poll.expand p = [0x05000000, 0x05000000]
      ∧ (AsmLine.echo a w).expand p
          = List.replicate a 0x01000000 ++ [0x02000000] ++ List.replicate w 0x01000000 ++ [0x03000000]
      ∧ AsmLine.waitPulse.expand p = List.replicate p.trigPulseUs.toNat 0x06000000
      ∧ AsmLine.waitQuiet.expand p = List.replicate p.quietUs.toNat 0x06000000

/-! ## Invariants -/

/-- The couplings of R52 to R57, and the bounds of R158, hold in every launch state of an admitted configuration, and
in the state `State.reset`. -/
def Obligations.LaunchStatesAreCoupled : Prop :=
  (∀ (p : Params) (echo0 : Bool) (s : State), CleanLaunch p echo0 s → Coupled s ∧ RangeBounded s)
    ∧ Coupled State.reset ∧ RangeBounded State.reset

/-- Every step keeps the couplings of R52 to R57 and the byte position's coupling of R183. -/
def Obligations.StepKeepsTheCouplings : Prop :=
  ∀ s t : State, Coupled s → step s = .next t → Coupled t

/-- Every step keeps the bounds of R55 and R158 on the captured values, stale captures excepted as R55 excepts
them. -/
def Obligations.StepKeepsTheRanges : Prop :=
  ∀ s t : State, Coupled s → RangeBounded s → step s = .next t → RangeBounded t

/-- R419: no step changes the configuration. -/
def Obligations.ConfigurationNeverChanges : Prop :=
  ∀ s t : State, step s = .next t → t.params = s.params

/-- R206: no stimulus other than RESET changes `SEQ_PHASE`; a cycle cannot be cancelled. -/
def Obligations.OnlyResetCancelsTheCycle : Prop :=
  ∀ (s t : State) (w : Word) (rest : List Move),
    s.schedule = .stimulus w :: rest → decodePort w ≠ .ok .reset → step s = .next t → t.seqPhase = s.seqPhase

/-- R21: `SEQ_PHASE` moves only round its cycle, each move by its own internal operation, or to IDLE by RESET. -/
def Obligations.PhaseMovesRoundItsCycle : Prop :=
  ∀ s t : State, step s = .next t →
    t.seqPhase = s.seqPhase
      ∨ (s.seqPhase = .idle ∧ t.seqPhase = .pulse ∧ performed s = some .trigBegin)
      ∨ (s.seqPhase = .pulse ∧ t.seqPhase = .arming ∧ performed s = some .trigEnd)
      ∨ (s.seqPhase = .arming ∧ t.seqPhase = .wait ∧ performed s = some (.arm s.params.timeoutTicks))
      ∨ (s.seqPhase = .wait ∧ t.seqPhase = .quiet ∧ performed s = some .teardown)
      ∨ (s.seqPhase = .quiet ∧ t.seqPhase = .idle ∧ performed s = some .quietEnd)
      ∨ (t.seqPhase = .idle ∧ performed s = some .reset)

/-- R150: every change of `MEAS_STATE` is a row of the state diagram, with that row's event. -/
def Obligations.MeasStateFollowsTheDiagram : Prop :=
  ∀ s t : State, Coupled s → step s = .next t →
    t.measState = s.measState
      ∨ (s.measState = .idle ∧ t.measState = .awaitRise ∧ performed s = some (.arm s.params.timeoutTicks))
      ∨ (s.measState = .awaitRise ∧ t.measState = .awaitFall
          ∧ ∃ i, performed s = some i ∧ raisedInterrupt i s = some .capture)
      ∨ (s.measState = .awaitFall ∧ t.measState = .resolved
          ∧ ∃ i, performed s = some i ∧ raisedInterrupt i s = some .capture)
      ∨ (s.measState.awaiting = true ∧ t.measState = .timedOut
          ∧ performed s = some .tick ∧ raisedInterrupt .tick s = some .timeout)
      ∨ (s.measState.terminal = true ∧ t.measState = .idle ∧ performed s = some .teardown)
      ∨ (t.measState = .idle ∧ performed s = some .reset)

/-- R162: `EDGE_PHASE` never skips: 0 to 1, 1 to 2, or to 0. -/
def Obligations.EdgePhaseNeverSkips : Prop :=
  ∀ s t : State, Coupled s → step s = .next t →
    t.edgePhase = s.edgePhase ∨ (s.edgePhase = 0 ∧ t.edgePhase = 1) ∨ (s.edgePhase = 1 ∧ t.edgePhase = 2)
      ∨ t.edgePhase = 0

/-- R28, R73 and conflict C1: the published Distance and its pair latches change only in a step that publishes, and
by RESET; they persist through every other step, ARM and TEARDOWN among them. -/
def Obligations.PublishedValuePersists : Prop :=
  ∀ (m : Move) (s t : State), moveStep m s = .next t → publishes m s = false → presents .reset m = false →
    t.distance = s.distance ∧ t.pubHi = s.pubHi ∧ t.pubLo = s.pubLo

/-- R161: in a cycle that has published, no step publishes again. -/
def Obligations.PublishHappensOncePerCycle : Prop :=
  (∀ (m : Move) (s : State), Coupled s → s.cycleComplete = true → publishes m s = false)
    ∧ ∀ (m : Move) (s t : State), moveStep m s = .next t → publishes m s = true →
        t.cycleComplete = true ∧ t.byteSel = .hi ∧ t.distance = pair t.pubHi t.pubLo

/-- R302, R305: a stimulus other than RESET that raises no interrupt runs no handler: nothing a handler writes
changes. -/
def Obligations.NoInterruptNoHandler : Prop :=
  ∀ (i : Instr) (s t : State), i.opClass = .stimulus → i ≠ .reset → raisedInterrupt i s = none →
    exec i s = .next t →
      t.measState = s.measState ∧ t.edgePhase = s.edgePhase ∧ t.capPol = s.capPol ∧ t.icr = s.icr
        ∧ t.riseTicks = s.riseTicks ∧ t.distance = s.distance ∧ t.pubHi = s.pubHi ∧ t.pubLo = s.pubLo
        ∧ t.byteSel = s.byteSel ∧ t.lastTx = s.lastTx ∧ t.cycleComplete = s.cycleComplete

/-- R106, R411: outside phase WAIT no echo edge is captured: it moves the level, and nothing else. -/
def Obligations.EdgesOutsideWaitOnlyMoveTheLevel : Prop :=
  ∀ s : State, Coupled s → s.seqPhase ≠ .wait →
    (s.echoLvl = false → exec .rise s = .next { s with echoLvl := true })
      ∧ (s.echoLvl = true → exec .fall s = .next { s with echoLvl := false })
      ∧ ∀ v, exec (.staleRise v) s = .next (reject .stale s)

/-- R183: the low byte a BYTE emits completes, with the byte emitted before it, the Distance now published: the block
never pairs bytes of two cycles. -/
def Obligations.EmittedPairIsOfOnePublish : Prop :=
  ∀ (s t : State) (w : Word) (rest : List Move) (mosi : Byte),
    Coupled s → s.byteSel = .lo → s.schedule = .stimulus w :: rest → decodePort w = .ok (.byte mosi) →
      step s = .next t → pair s.lastTx t.lastTx = s.distance ∧ t.distance = s.distance

/-- R306: with the falling edge and the compare match on the same count, both orders are runs of the block, with
their two results. -/
def Obligations.BothOrdersOfEdgeAndMatchAreRuns : Prop :=
  ∀ s : State, s.measState = .awaitFall → s.tRun = true → s.capEn = true → s.cmpEn = true → s.capPol = .falling →
    s.echoLvl = true → s.tcnt + 1 = s.tcmp →
      (∃ t, Runs [.stimulus 0x03000000, .stimulus 0x01000000] s t ∧ t.measState = .resolved
          ∧ t.distance = s.tcmp - 1 - s.riseTicks)
        ∧ (∃ t, Runs [.stimulus 0x01000000, .stimulus 0x03000000] s t ∧ t.measState = .timedOut
          ∧ t.distance = 0 ∧ t.icr = s.tcmp)

/-! ## Runs -/

/-- The schedule State carries is taken move by move: running it to its end is the run of its moves, so a statement
over runs is a statement over the steps of the machine. -/
def Obligations.ScheduleIsRunMoveByMove : Prop :=
  ∀ (ms : List Move) (s t : State),
    Host.Core.run Sys2Proof.core ms.length { s with schedule := ms } = .next t
      ↔ Runs ms { s with schedule := [] } t

/-- R104: between TRIG_BEGIN and the enabling of TRIG_END there are exactly `TRIG_PULSE_US` USTICKs, whatever else
steps in between, and the trigger is high throughout. -/
def Obligations.PulseLastsItsMicroseconds : Prop :=
  ∀ (s s₀ t : State) (ms : List Move),
    exec .trigBegin s = .next s₀ → Without .reset ms → Runs ms s₀ t →
      (countOf .ustick ms < s.params.trigPulseUs.toNat →
          t.seqPhase = .pulse ∧ t.trig = true ∧ enabledOp t = none
            ∧ t.seqDelay.toNat = s.params.trigPulseUs.toNat - countOf .ustick ms)
        ∧ (∀ m ms', ms = ms' ++ [m] → presents .ustick m = true →
            countOf .ustick ms = s.params.trigPulseUs.toNat →
              t.seqPhase = .pulse ∧ t.trig = true ∧ enabledOp t = some .trigEnd)

/-- R205: between TEARDOWN and the enabling of QUIET_END there are exactly `QUIET_US` USTICKs, no internal operation
is enabled before it, and only RESET could end the period early. -/
def Obligations.QuietPeriodLastsItsMicroseconds : Prop :=
  ∀ (s s₀ t : State) (ms : List Move),
    exec .teardown s = .next s₀ → Without .reset ms → Runs ms s₀ t →
      (countOf .ustick ms < s.params.quietUs.toNat →
          t.seqPhase = .quiet ∧ enabledOp t = none
            ∧ t.seqDelay.toNat = s.params.quietUs.toNat - countOf .ustick ms)
        ∧ (∀ m ms', ms = ms' ++ [m] → presents .ustick m = true →
            countOf .ustick ms = s.params.quietUs.toNat →
              t.seqPhase = .quiet ∧ enabledOp t = some .quietEnd)
        ∧ (s.params.quietUs = 0 → enabledOp s₀ = some .quietEnd)

/-- R124 and R163: after ARM, while no falling capture has resolved the cycle, it is still awaiting with its counter
at the number of TICKs, until the `TIMEOUT_TICKS`-th TICK, which ends it with Distance 0. -/
def Obligations.TimeoutComesAtTheCompareTick : Prop :=
  ∀ (s s₀ t : State) (ms : List Move),
    exec (.arm s.params.timeoutTicks) s = .next s₀ → Without .reset ms → Runs ms s₀ t →
      (∀ pre post u, ms = pre ++ post → Runs pre s₀ u → u.measState ≠ .resolved) →
        (countOf .tick ms < s.params.timeoutTicks.toNat →
            t.measState.awaiting = true ∧ t.tcnt.toNat = countOf .tick ms ∧ t.cycleComplete = false)
          ∧ (∀ m ms', ms = ms' ++ [m] → presents .tick m = true →
              countOf .tick ms = s.params.timeoutTicks.toNat →
                t.measState = .timedOut ∧ t.distance = 0 ∧ t.edgePhase = 0 ∧ t.cycleComplete = true
                  ∧ enabledOp t = some .teardown)

/-- R212, the bound: a cycle that is awaiting raises `CYCLE_COMPLETE` within the TICKs left to its compare value,
whatever else happens short of a RESET. -/
def Obligations.CycleCompletesWithinItsTimeout : Prop :=
  ∀ (s t : State) (ms : List Move),
    Coupled s → s.measState.awaiting = true → Without .reset ms → Runs ms s t →
      s.tcmp.toNat - s.tcnt.toNat ≤ countOf .tick ms →
        ∃ pre post u, ms = pre ++ post ∧ Runs pre s u ∧ u.cycleComplete = true

/-- R182 and R184: over a run with no Publish and no RESET the bytes emitted alternate between the two bytes of the
pair, from the position at its start, one byte per BYTE. -/
def Obligations.BytesAlternateBetweenPublishes : Prop :=
  ∀ (ms : List Move) (s t : State), RunsUnpublished ms s t →
    ∃ new, t.trace = new ++ s.trace
      ∧ emitted new = alternation s.pubHi s.pubLo s.byteSel (ms.countP presentsByte)
      ∧ t.byteSel = positionAfter s.byteSel (ms.countP presentsByte)
      ∧ t.pubHi = s.pubHi ∧ t.pubLo = s.pubLo

/-- R182 and R185: after a step that publishes, a master that reads at least two bytes before the next Publish
receives the high and then the low byte of the Distance that step published: no value is dropped. -/
def Obligations.EveryPublishedValueIsServed : Prop :=
  ∀ (m : Move) (ms : List Move) (s u t : State),
    moveStep m s = .next u → publishes m s = true → RunsUnpublished ms u t → 2 ≤ ms.countP presentsByte →
      ∃ new more, t.trace = new ++ u.trace ∧ emitted new = highByte u.distance :: lowByte u.distance :: more

/-- R189: what the bus master receives between Publishes depends on the pair latches and the byte position alone: two
states that agree on them emit the same bytes, whatever else differs (freshness, the cause of a zero, the cycle in
progress). -/
def Obligations.BusSeesOnlyTheLatches : Prop :=
  ∀ (ms : List Move) (s s' t t' : State),
    s.pubHi = s'.pubHi → s.pubLo = s'.pubLo → s.byteSel = s'.byteSel →
      RunsUnpublished ms s t → RunsUnpublished ms s' t' →
        ∃ new new', t.trace = new ++ s.trace ∧ t'.trace = new' ++ s'.trace ∧ emitted new = emitted new'

/-- R212: in every infinite run from a coupled state, under weak fairness of the sequencer and the two duties of the
time bases, with no RESET, TEARDOWN is taken again and again: cycles repeat without end. -/
def Obligations.CyclesRepeatWithoutEnd : Prop :=
  ∀ (μ : Nat → Move) (σ : Nat → State),
    IsRun μ σ → Coupled (σ 0) → WeaklyFair μ σ → TickDuty μ σ → UstickDuty μ σ →
      (∀ n, presents .reset (μ n) = false) →
        ∀ n, ∃ m, n ≤ m ∧ μ m = .sequencer ∧ enabledOp (σ m) = some .teardown
end

