-- ==== Sys2Proof/Laws/Decode.lean ====
section
/-! SUPPORT. The fields of a joined word (R80), the opcode map read in both directions (R83), and what the two
decoders can answer. -/

namespace Sys2Proof

@[simp] theorem opcField_joinFields (o r : BitVec 8) (i : BitVec 16) : opcField (joinFields o r i) = o := by
  unfold opcField joinFields
  apply BitVec.eq_of_getLsbD_eq
  intro k hk
  simp only [BitVec.getLsbD_extractLsb', BitVec.getLsbD_append]
  rw [if_neg (by omega), if_neg (by omega)]
  simp [hk, show 24 + k - 16 - 8 = k by omega]

@[simp] theorem rsvField_joinFields (o r : BitVec 8) (i : BitVec 16) : rsvField (joinFields o r i) = r := by
  unfold rsvField joinFields
  apply BitVec.eq_of_getLsbD_eq
  intro k hk
  simp only [BitVec.getLsbD_extractLsb', BitVec.getLsbD_append]
  rw [if_neg (by omega), if_pos (by omega)]
  simp [hk]

@[simp] theorem immField_joinFields (o r : BitVec 8) (i : BitVec 16) : immField (joinFields o r i) = i := by
  unfold immField joinFields
  apply BitVec.eq_of_getLsbD_eq
  intro k hk
  simp only [BitVec.getLsbD_extractLsb', BitVec.getLsbD_append]
  rw [if_pos (by omega)]
  simp [hk]

theorem joinFields_fields (w : Word) : joinFields (opcField w) (rsvField w) (immField w) = w := by
  unfold opcField rsvField immField joinFields
  apply BitVec.eq_of_getLsbD_eq
  intro k hk
  simp only [BitVec.getLsbD_extractLsb', BitVec.getLsbD_append]
  split
  · simp; omega
  · split
    · simp [show k - 16 < 8 by omega, show 16 + (k - 16) = k by omega]
    · simp [show k - 16 - 8 < 8 by omega, show 24 + (k - 16 - 8) = k by omega]

@[simp] theorem ofByte?_toByte (o : Opcode) : Opcode.ofByte? o.toByte = some o := by
  cases o <;> decide

theorem toByte_of_ofByte? {b : BitVec 8} {o : Opcode} (h : Opcode.ofByte? b = some o) : o.toByte = b := by
  revert b o
  decide

@[simp] theorem Opcode.opcode_withImm (o : Opcode) (imm : BitVec 16) : (o.withImm imm).opcode = o := by
  cases o <;> rfl

@[simp] theorem opcField_encode (i : Instr) : opcField (encode i) = i.opcode.toByte := by
  simp [encode]

@[simp] theorem rsvField_encode (i : Instr) : rsvField (encode i) = 0 := by
  simp [encode]

@[simp] theorem immField_encode (i : Instr) : immField (encode i) = i.imm := by
  simp [encode]

/-- What `decodeWord` accepts: a word whose three fields are as its operation code's row requires. -/
theorem decodeWord_ok {w : Word} {i : Instr} (h : decodeWord w = .ok i) :
    ∃ o, Opcode.ofByte? (opcField w) = some o ∧ rsvField w = 0 ∧ immField w &&& o.form.zeroMask = 0
      ∧ i = o.withImm (immField w) := by
  unfold decodeWord at h
  split at h
  · cases h
  · next o ho =>
    split at h
    · cases h
    · split at h
      · cases h
      · next hr hi =>
        cases h
        exact ⟨o, ho, by simpa using hr, by simpa using hi, rfl⟩

/-- The internal operation codes are the bytes 0x10 to 0x14 (R83). -/
theorem internal_byte_iff {b : BitVec 8} {o : Opcode} (h : Opcode.ofByte? b = some o) :
    (0x10 ≤ b.toNat ∧ b.toNat ≤ 0x14) ↔ o.opClass = .internal := by
  revert b o
  decide

/-- What the stimulus port accepts: a word of a stimulus. -/
theorem decodePort_ok {w : Word} {i : Instr} (h : decodePort w = .ok i) :
    decodeWord w = .ok i ∧ ¬ (0x10 ≤ (opcField w).toNat ∧ (opcField w).toNat ≤ 0x14) := by
  unfold decodePort at h
  split at h
  · cases h
  · next hn => exact ⟨h, hn⟩

end Sys2Proof
end

