-- ==== Sys2Proof/Laws/State.lean ====
section
/-! SUPPORT. Each field of State after each shared operation that updates it, one lemma per field, so that no proof
unfolds a record update. -/

namespace Sys2Proof.Machine

variable (s : State)

@[simp] theorem reject_seqPhase (c : RejectCode) : (reject c s).seqPhase = s.seqPhase := rfl
@[simp] theorem reject_seqDelay (c : RejectCode) : (reject c s).seqDelay = s.seqDelay := rfl
@[simp] theorem reject_trig (c : RejectCode) : (reject c s).trig = s.trig := rfl
@[simp] theorem reject_measState (c : RejectCode) : (reject c s).measState = s.measState := rfl
@[simp] theorem reject_edgePhase (c : RejectCode) : (reject c s).edgePhase = s.edgePhase := rfl
@[simp] theorem reject_cycleComplete (c : RejectCode) : (reject c s).cycleComplete = s.cycleComplete := rfl
@[simp] theorem reject_riseTicks (c : RejectCode) : (reject c s).riseTicks = s.riseTicks := rfl
@[simp] theorem reject_distance (c : RejectCode) : (reject c s).distance = s.distance := rfl
@[simp] theorem reject_tcnt (c : RejectCode) : (reject c s).tcnt = s.tcnt := rfl
@[simp] theorem reject_tcmp (c : RejectCode) : (reject c s).tcmp = s.tcmp := rfl
@[simp] theorem reject_icr (c : RejectCode) : (reject c s).icr = s.icr := rfl
@[simp] theorem reject_tRun (c : RejectCode) : (reject c s).tRun = s.tRun := rfl
@[simp] theorem reject_capEn (c : RejectCode) : (reject c s).capEn = s.capEn := rfl
@[simp] theorem reject_cmpEn (c : RejectCode) : (reject c s).cmpEn = s.cmpEn := rfl
@[simp] theorem reject_capPol (c : RejectCode) : (reject c s).capPol = s.capPol := rfl
@[simp] theorem reject_echoLvl (c : RejectCode) : (reject c s).echoLvl = s.echoLvl := rfl
@[simp] theorem reject_armedHigh (c : RejectCode) : (reject c s).armedHigh = s.armedHigh := rfl
@[simp] theorem reject_pubHi (c : RejectCode) : (reject c s).pubHi = s.pubHi := rfl
@[simp] theorem reject_pubLo (c : RejectCode) : (reject c s).pubLo = s.pubLo := rfl
@[simp] theorem reject_byteSel (c : RejectCode) : (reject c s).byteSel = s.byteSel := rfl
@[simp] theorem reject_lastTx (c : RejectCode) : (reject c s).lastTx = s.lastTx := rfl
@[simp] theorem reject_fault (c : RejectCode) : (reject c s).fault = true := rfl
@[simp] theorem reject_faultCode (c : RejectCode) : (reject c s).faultCode = if s.fault then s.faultCode else c.code := rfl
@[simp] theorem reject_params (c : RejectCode) : (reject c s).params = s.params := rfl
@[simp] theorem reject_schedule (c : RejectCode) : (reject c s).schedule = s.schedule := rfl
@[simp] theorem reject_trace (c : RejectCode) : (reject c s).trace = s.trace := rfl

@[simp] theorem publish_seqPhase (d : Ticks) : (publish d s).seqPhase = s.seqPhase := rfl
@[simp] theorem publish_seqDelay (d : Ticks) : (publish d s).seqDelay = s.seqDelay := rfl
@[simp] theorem publish_trig (d : Ticks) : (publish d s).trig = s.trig := rfl
@[simp] theorem publish_measState (d : Ticks) : (publish d s).measState = s.measState := rfl
@[simp] theorem publish_edgePhase (d : Ticks) : (publish d s).edgePhase = s.edgePhase := rfl
@[simp] theorem publish_cycleComplete (d : Ticks) : (publish d s).cycleComplete = true := rfl
@[simp] theorem publish_riseTicks (d : Ticks) : (publish d s).riseTicks = s.riseTicks := rfl
@[simp] theorem publish_distance (d : Ticks) : (publish d s).distance = d := rfl
@[simp] theorem publish_tcnt (d : Ticks) : (publish d s).tcnt = s.tcnt := rfl
@[simp] theorem publish_tcmp (d : Ticks) : (publish d s).tcmp = s.tcmp := rfl
@[simp] theorem publish_icr (d : Ticks) : (publish d s).icr = s.icr := rfl
@[simp] theorem publish_tRun (d : Ticks) : (publish d s).tRun = s.tRun := rfl
@[simp] theorem publish_capEn (d : Ticks) : (publish d s).capEn = s.capEn := rfl
@[simp] theorem publish_cmpEn (d : Ticks) : (publish d s).cmpEn = s.cmpEn := rfl
@[simp] theorem publish_capPol (d : Ticks) : (publish d s).capPol = s.capPol := rfl
@[simp] theorem publish_echoLvl (d : Ticks) : (publish d s).echoLvl = s.echoLvl := rfl
@[simp] theorem publish_armedHigh (d : Ticks) : (publish d s).armedHigh = s.armedHigh := rfl
@[simp] theorem publish_pubHi (d : Ticks) : (publish d s).pubHi = highByte d := rfl
@[simp] theorem publish_pubLo (d : Ticks) : (publish d s).pubLo = lowByte d := rfl
@[simp] theorem publish_byteSel (d : Ticks) : (publish d s).byteSel = .hi := rfl
@[simp] theorem publish_lastTx (d : Ticks) : (publish d s).lastTx = s.lastTx := rfl
@[simp] theorem publish_fault (d : Ticks) : (publish d s).fault = s.fault := rfl
@[simp] theorem publish_faultCode (d : Ticks) : (publish d s).faultCode = s.faultCode := rfl
@[simp] theorem publish_params (d : Ticks) : (publish d s).params = s.params := rfl
@[simp] theorem publish_schedule (d : Ticks) : (publish d s).schedule = s.schedule := rfl
@[simp] theorem publish_trace (d : Ticks) : (publish d s).trace = s.trace := rfl

@[simp] theorem disarm_seqPhase : (disarm s).seqPhase = s.seqPhase := rfl
@[simp] theorem disarm_seqDelay : (disarm s).seqDelay = s.seqDelay := rfl
@[simp] theorem disarm_trig : (disarm s).trig = s.trig := rfl
@[simp] theorem disarm_measState : (disarm s).measState = s.measState := rfl
@[simp] theorem disarm_edgePhase : (disarm s).edgePhase = s.edgePhase := rfl
@[simp] theorem disarm_cycleComplete : (disarm s).cycleComplete = s.cycleComplete := rfl
@[simp] theorem disarm_riseTicks : (disarm s).riseTicks = s.riseTicks := rfl
@[simp] theorem disarm_distance : (disarm s).distance = s.distance := rfl
@[simp] theorem disarm_tcnt : (disarm s).tcnt = s.tcnt := rfl
@[simp] theorem disarm_tcmp : (disarm s).tcmp = s.tcmp := rfl
@[simp] theorem disarm_icr : (disarm s).icr = s.icr := rfl
@[simp] theorem disarm_tRun : (disarm s).tRun = false := rfl
@[simp] theorem disarm_capEn : (disarm s).capEn = false := rfl
@[simp] theorem disarm_cmpEn : (disarm s).cmpEn = false := rfl
@[simp] theorem disarm_capPol : (disarm s).capPol = s.capPol := rfl
@[simp] theorem disarm_echoLvl : (disarm s).echoLvl = s.echoLvl := rfl
@[simp] theorem disarm_armedHigh : (disarm s).armedHigh = false := rfl
@[simp] theorem disarm_pubHi : (disarm s).pubHi = s.pubHi := rfl
@[simp] theorem disarm_pubLo : (disarm s).pubLo = s.pubLo := rfl
@[simp] theorem disarm_byteSel : (disarm s).byteSel = s.byteSel := rfl
@[simp] theorem disarm_lastTx : (disarm s).lastTx = s.lastTx := rfl
@[simp] theorem disarm_fault : (disarm s).fault = s.fault := rfl
@[simp] theorem disarm_faultCode : (disarm s).faultCode = s.faultCode := rfl
@[simp] theorem disarm_params : (disarm s).params = s.params := rfl
@[simp] theorem disarm_schedule : (disarm s).schedule = s.schedule := rfl
@[simp] theorem disarm_trace : (disarm s).trace = s.trace := rfl

@[simp] theorem recordRise_seqPhase (v : Ticks) : (recordRise v s).seqPhase = s.seqPhase := rfl
@[simp] theorem recordRise_seqDelay (v : Ticks) : (recordRise v s).seqDelay = s.seqDelay := rfl
@[simp] theorem recordRise_trig (v : Ticks) : (recordRise v s).trig = s.trig := rfl
@[simp] theorem recordRise_measState (v : Ticks) : (recordRise v s).measState = .awaitFall := rfl
@[simp] theorem recordRise_edgePhase (v : Ticks) : (recordRise v s).edgePhase = nextEdgePhase s.edgePhase := rfl
@[simp] theorem recordRise_cycleComplete (v : Ticks) : (recordRise v s).cycleComplete = s.cycleComplete := rfl
@[simp] theorem recordRise_riseTicks (v : Ticks) : (recordRise v s).riseTicks = v := rfl
@[simp] theorem recordRise_distance (v : Ticks) : (recordRise v s).distance = s.distance := rfl
@[simp] theorem recordRise_tcnt (v : Ticks) : (recordRise v s).tcnt = s.tcnt := rfl
@[simp] theorem recordRise_tcmp (v : Ticks) : (recordRise v s).tcmp = s.tcmp := rfl
@[simp] theorem recordRise_icr (v : Ticks) : (recordRise v s).icr = s.icr := rfl
@[simp] theorem recordRise_tRun (v : Ticks) : (recordRise v s).tRun = s.tRun := rfl
@[simp] theorem recordRise_capEn (v : Ticks) : (recordRise v s).capEn = s.capEn := rfl
@[simp] theorem recordRise_cmpEn (v : Ticks) : (recordRise v s).cmpEn = s.cmpEn := rfl
@[simp] theorem recordRise_capPol (v : Ticks) : (recordRise v s).capPol = .falling := rfl
@[simp] theorem recordRise_echoLvl (v : Ticks) : (recordRise v s).echoLvl = s.echoLvl := rfl
@[simp] theorem recordRise_armedHigh (v : Ticks) : (recordRise v s).armedHigh = s.armedHigh := rfl
@[simp] theorem recordRise_pubHi (v : Ticks) : (recordRise v s).pubHi = s.pubHi := rfl
@[simp] theorem recordRise_pubLo (v : Ticks) : (recordRise v s).pubLo = s.pubLo := rfl
@[simp] theorem recordRise_byteSel (v : Ticks) : (recordRise v s).byteSel = s.byteSel := rfl
@[simp] theorem recordRise_lastTx (v : Ticks) : (recordRise v s).lastTx = s.lastTx := rfl
@[simp] theorem recordRise_fault (v : Ticks) : (recordRise v s).fault = s.fault := rfl
@[simp] theorem recordRise_faultCode (v : Ticks) : (recordRise v s).faultCode = s.faultCode := rfl
@[simp] theorem recordRise_params (v : Ticks) : (recordRise v s).params = s.params := rfl
@[simp] theorem recordRise_schedule (v : Ticks) : (recordRise v s).schedule = s.schedule := rfl
@[simp] theorem recordRise_trace (v : Ticks) : (recordRise v s).trace = s.trace := rfl

@[simp] theorem resolveFall_seqPhase (v : Ticks) : (resolveFall v s).seqPhase = s.seqPhase := rfl
@[simp] theorem resolveFall_seqDelay (v : Ticks) : (resolveFall v s).seqDelay = s.seqDelay := rfl
@[simp] theorem resolveFall_trig (v : Ticks) : (resolveFall v s).trig = s.trig := rfl
@[simp] theorem resolveFall_measState (v : Ticks) : (resolveFall v s).measState = .resolved := rfl
@[simp] theorem resolveFall_edgePhase (v : Ticks) : (resolveFall v s).edgePhase = nextEdgePhase s.edgePhase := rfl
@[simp] theorem resolveFall_cycleComplete (v : Ticks) : (resolveFall v s).cycleComplete = true := rfl
@[simp] theorem resolveFall_riseTicks (v : Ticks) : (resolveFall v s).riseTicks = s.riseTicks := rfl
@[simp] theorem resolveFall_distance (v : Ticks) : (resolveFall v s).distance = tickDistance s.riseTicks v := rfl
@[simp] theorem resolveFall_tcnt (v : Ticks) : (resolveFall v s).tcnt = s.tcnt := rfl
@[simp] theorem resolveFall_tcmp (v : Ticks) : (resolveFall v s).tcmp = s.tcmp := rfl
@[simp] theorem resolveFall_icr (v : Ticks) : (resolveFall v s).icr = s.icr := rfl
@[simp] theorem resolveFall_tRun (v : Ticks) : (resolveFall v s).tRun = s.tRun := rfl
@[simp] theorem resolveFall_capEn (v : Ticks) : (resolveFall v s).capEn = s.capEn := rfl
@[simp] theorem resolveFall_cmpEn (v : Ticks) : (resolveFall v s).cmpEn = s.cmpEn := rfl
@[simp] theorem resolveFall_capPol (v : Ticks) : (resolveFall v s).capPol = .rising := rfl
@[simp] theorem resolveFall_echoLvl (v : Ticks) : (resolveFall v s).echoLvl = s.echoLvl := rfl
@[simp] theorem resolveFall_armedHigh (v : Ticks) : (resolveFall v s).armedHigh = s.armedHigh := rfl
@[simp] theorem resolveFall_pubHi (v : Ticks) : (resolveFall v s).pubHi = highByte (tickDistance s.riseTicks v) := rfl
@[simp] theorem resolveFall_pubLo (v : Ticks) : (resolveFall v s).pubLo = lowByte (tickDistance s.riseTicks v) := rfl
@[simp] theorem resolveFall_byteSel (v : Ticks) : (resolveFall v s).byteSel = .hi := rfl
@[simp] theorem resolveFall_lastTx (v : Ticks) : (resolveFall v s).lastTx = s.lastTx := rfl
@[simp] theorem resolveFall_fault (v : Ticks) : (resolveFall v s).fault = s.fault := rfl
@[simp] theorem resolveFall_faultCode (v : Ticks) : (resolveFall v s).faultCode = s.faultCode := rfl
@[simp] theorem resolveFall_params (v : Ticks) : (resolveFall v s).params = s.params := rfl
@[simp] theorem resolveFall_schedule (v : Ticks) : (resolveFall v s).schedule = s.schedule := rfl
@[simp] theorem resolveFall_trace (v : Ticks) : (resolveFall v s).trace = s.trace := rfl

@[simp] theorem resolveTimeout_seqPhase : (resolveTimeout s).seqPhase = s.seqPhase := rfl
@[simp] theorem resolveTimeout_seqDelay : (resolveTimeout s).seqDelay = s.seqDelay := rfl
@[simp] theorem resolveTimeout_trig : (resolveTimeout s).trig = s.trig := rfl
@[simp] theorem resolveTimeout_measState : (resolveTimeout s).measState = .timedOut := rfl
@[simp] theorem resolveTimeout_edgePhase : (resolveTimeout s).edgePhase = 0 := rfl
@[simp] theorem resolveTimeout_cycleComplete : (resolveTimeout s).cycleComplete = true := rfl
@[simp] theorem resolveTimeout_riseTicks : (resolveTimeout s).riseTicks = s.riseTicks := rfl
@[simp] theorem resolveTimeout_distance : (resolveTimeout s).distance = 0 := rfl
@[simp] theorem resolveTimeout_tcnt : (resolveTimeout s).tcnt = s.tcnt := rfl
@[simp] theorem resolveTimeout_tcmp : (resolveTimeout s).tcmp = s.tcmp := rfl
@[simp] theorem resolveTimeout_icr : (resolveTimeout s).icr = s.icr := rfl
@[simp] theorem resolveTimeout_tRun : (resolveTimeout s).tRun = s.tRun := rfl
@[simp] theorem resolveTimeout_capEn : (resolveTimeout s).capEn = s.capEn := rfl
@[simp] theorem resolveTimeout_cmpEn : (resolveTimeout s).cmpEn = s.cmpEn := rfl
@[simp] theorem resolveTimeout_capPol : (resolveTimeout s).capPol = s.capPol := rfl
@[simp] theorem resolveTimeout_echoLvl : (resolveTimeout s).echoLvl = s.echoLvl := rfl
@[simp] theorem resolveTimeout_armedHigh : (resolveTimeout s).armedHigh = s.armedHigh := rfl
@[simp] theorem resolveTimeout_pubHi : (resolveTimeout s).pubHi = highByte 0 := rfl
@[simp] theorem resolveTimeout_pubLo : (resolveTimeout s).pubLo = lowByte 0 := rfl
@[simp] theorem resolveTimeout_byteSel : (resolveTimeout s).byteSel = .hi := rfl
@[simp] theorem resolveTimeout_lastTx : (resolveTimeout s).lastTx = s.lastTx := rfl
@[simp] theorem resolveTimeout_fault : (resolveTimeout s).fault = s.fault := rfl
@[simp] theorem resolveTimeout_faultCode : (resolveTimeout s).faultCode = s.faultCode := rfl
@[simp] theorem resolveTimeout_params : (resolveTimeout s).params = s.params := rfl
@[simp] theorem resolveTimeout_schedule : (resolveTimeout s).schedule = s.schedule := rfl
@[simp] theorem resolveTimeout_trace : (resolveTimeout s).trace = s.trace := rfl

@[simp] theorem byteRequestHandler_seqPhase : (byteRequestHandler s).seqPhase = s.seqPhase := rfl
@[simp] theorem byteRequestHandler_seqDelay : (byteRequestHandler s).seqDelay = s.seqDelay := rfl
@[simp] theorem byteRequestHandler_trig : (byteRequestHandler s).trig = s.trig := rfl
@[simp] theorem byteRequestHandler_measState : (byteRequestHandler s).measState = s.measState := rfl
@[simp] theorem byteRequestHandler_edgePhase : (byteRequestHandler s).edgePhase = s.edgePhase := rfl
@[simp] theorem byteRequestHandler_cycleComplete : (byteRequestHandler s).cycleComplete = s.cycleComplete := rfl
@[simp] theorem byteRequestHandler_riseTicks : (byteRequestHandler s).riseTicks = s.riseTicks := rfl
@[simp] theorem byteRequestHandler_distance : (byteRequestHandler s).distance = s.distance := rfl
@[simp] theorem byteRequestHandler_tcnt : (byteRequestHandler s).tcnt = s.tcnt := rfl
@[simp] theorem byteRequestHandler_tcmp : (byteRequestHandler s).tcmp = s.tcmp := rfl
@[simp] theorem byteRequestHandler_icr : (byteRequestHandler s).icr = s.icr := rfl
@[simp] theorem byteRequestHandler_tRun : (byteRequestHandler s).tRun = s.tRun := rfl
@[simp] theorem byteRequestHandler_capEn : (byteRequestHandler s).capEn = s.capEn := rfl
@[simp] theorem byteRequestHandler_cmpEn : (byteRequestHandler s).cmpEn = s.cmpEn := rfl
@[simp] theorem byteRequestHandler_capPol : (byteRequestHandler s).capPol = s.capPol := rfl
@[simp] theorem byteRequestHandler_echoLvl : (byteRequestHandler s).echoLvl = s.echoLvl := rfl
@[simp] theorem byteRequestHandler_armedHigh : (byteRequestHandler s).armedHigh = s.armedHigh := rfl
@[simp] theorem byteRequestHandler_pubHi : (byteRequestHandler s).pubHi = s.pubHi := rfl
@[simp] theorem byteRequestHandler_pubLo : (byteRequestHandler s).pubLo = s.pubLo := rfl
@[simp] theorem byteRequestHandler_byteSel : (byteRequestHandler s).byteSel = s.byteSel.toggle := rfl
@[simp] theorem byteRequestHandler_lastTx : (byteRequestHandler s).lastTx = servedByte s := rfl
@[simp] theorem byteRequestHandler_fault : (byteRequestHandler s).fault = s.fault := rfl
@[simp] theorem byteRequestHandler_faultCode : (byteRequestHandler s).faultCode = s.faultCode := rfl
@[simp] theorem byteRequestHandler_params : (byteRequestHandler s).params = s.params := rfl
@[simp] theorem byteRequestHandler_schedule : (byteRequestHandler s).schedule = s.schedule := rfl
@[simp] theorem byteRequestHandler_trace : (byteRequestHandler s).trace = s.trace := rfl

end Sys2Proof.Machine
end

