-- ==== Sys2Proof/Laws/Ops.lean ====
section
/-! SUPPORT. One lemma per shared operation that says everything it can do. -/

namespace Sys2Proof.Machine

variable {s t : State}

/-- A stimulus step after decoding is rejected or accepted, and nothing else. -/
theorem admitOrReject_next {why : Option RejectCode} {a : State} (h : admitOrReject why s a = .next t) :
    (∃ c, why = some c ∧ t = reject c s) ∨ (why = none ∧ t = a) := by
  unfold admitOrReject at h
  split at h
  · cases h; exact .inl ⟨_, rfl, rfl⟩
  · cases h; exact .inr ⟨rfl, rfl⟩

/-- An internal operation takes its step exactly where it is enabled. -/
theorem whenEnabled_next {b : Bool} {mn : String} {a : State} : whenEnabled b mn a = .next t ↔ b = true ∧ a = t := by
  unfold whenEnabled
  cases b <;> simp

/-- The capture handler records the rise, resolves the cycle, or discards (R151). -/
theorem captureHandler_cases (v : Ticks) (s : State) :
    (s.measState = .awaitRise ∧ captureHandler v s = recordRise v s)
      ∨ (s.measState = .awaitFall ∧ captureHandler v s = resolveFall v s)
      ∨ (s.measState.awaiting = false ∧ captureHandler v s = s) := by
  unfold captureHandler
  cases h : s.measState <;> simp [MeasState.awaiting]

/-- The timeout handler resolves an awaiting cycle to zero, or discards (R155, R156). -/
theorem timeoutHandler_cases (s : State) :
    (s.measState.awaiting = true ∧ timeoutHandler s = resolveTimeout s)
      ∨ (s.measState.awaiting = false ∧ timeoutHandler s = s) := by
  unfold timeoutHandler
  cases h : s.measState <;> simp [MeasState.awaiting]

/-- A capture latches its value and is then handled (R127). -/
theorem capture_eq (v : Ticks) (s : State) : capture v s = captureHandler v { s with icr := v } := rfl

/-- A capture in each of the three cases of R151. -/
theorem capture_cases (v : Ticks) (s : State) :
    (s.measState = .awaitRise ∧ capture v s = recordRise v { s with icr := v })
      ∨ (s.measState = .awaitFall ∧ capture v s = resolveFall v { s with icr := v })
      ∨ (s.measState.awaiting = false ∧ capture v s = { s with icr := v }) :=
  captureHandler_cases v { s with icr := v }

/-- The enabled operation is the one whose row of R203 holds. -/
theorem enabledOp_some {i : Instr} (h : enabledOp s = some i) :
    (i = .trigBegin ∧ s.seqPhase = .idle)
      ∨ (i = .trigEnd ∧ s.seqPhase = .pulse ∧ s.seqDelay = 0)
      ∨ (i = .arm s.params.timeoutTicks ∧ s.seqPhase = .arming)
      ∨ (i = .teardown ∧ s.seqPhase = .wait ∧ s.cycleComplete = true)
      ∨ (i = .quietEnd ∧ s.seqPhase = .quiet ∧ s.seqDelay = 0) := by
  unfold enabledOp at h
  split at h <;> (try split at h) <;> simp_all

end Sys2Proof.Machine
end

