-- ==== Sys2Proof/Laws/PerInstr.lean ====
section
/-! SUPPORT. The family EncodingFields: the three fields of the word of every operation (R80, R81, R82, R83). -/

namespace Sys2Proof.Laws.EncodingFields

/-- The word of `i` holds its operation code in bits 31:24, zero in bits 23:16 and its operand in bits 15:0, and the
`imm` bits its form requires to be zero are zero. -/
def Statement (i : Instr) : Prop :=
  opcField (encode i) = i.opcode.toByte ∧ rsvField (encode i) = 0 ∧ immField (encode i) = i.imm
    ∧ immField (encode i) &&& i.opcode.form.zeroMask = 0

theorem byte_imm_high (m : Byte) : (m.zeroExtend 16 : BitVec 16) &&& 0xFF00 = 0 := by
  revert m
  decide

theorem tick : Statement .tick := by simp [Statement, Instr.imm]

theorem rise : Statement .rise := by simp [Statement, Instr.imm]

theorem fall : Statement .fall := by simp [Statement, Instr.imm]

theorem staleRise (v : Ticks) : Statement (.staleRise v) := by
  simp [Statement, Instr.opcode, Opcode.form, OpForm.zeroMask]

theorem byte (mosi : Byte) : Statement (.byte mosi) := by
  refine ⟨opcField_encode _, rsvField_encode _, immField_encode _, ?_⟩
  rw [immField_encode]
  exact byte_imm_high mosi

theorem ustick : Statement .ustick := by simp [Statement, Instr.imm]

theorem reset : Statement .reset := by simp [Statement, Instr.imm]

theorem trigBegin : Statement .trigBegin := by simp [Statement, Instr.imm]

theorem trigEnd : Statement .trigEnd := by simp [Statement, Instr.imm]

theorem arm (timeoutTicks : Ticks) : Statement (.arm timeoutTicks) := by
  simp [Statement, Instr.opcode, Opcode.form, OpForm.zeroMask]

theorem teardown : Statement .teardown := by simp [Statement, Instr.imm]

theorem quietEnd : Statement .quietEnd := by simp [Statement, Instr.imm]

end Sys2Proof.Laws.EncodingFields
end

