-- ==== Sys2Proof/Laws/Step.lean ====
section
/-! SUPPORT. What each meaning can answer, and what one step can do. -/

namespace Sys2Proof.Machine

variable {s t : State}

/-- The compare test of TICK, on the registers before the step. -/
def matchesNext (s : State) : Bool := s.cmpEn && nextCount s.tcnt == s.tcmp

theorem exec_tick (s : State) :
    (s.tRun = false ∧ exec .tick s = .next s)
      ∨ (s.tRun = true ∧ matchesNext s = false ∧ exec .tick s = .next { s with tcnt := nextCount s.tcnt })
      ∨ (s.tRun = true ∧ matchesNext s = true
          ∧ exec .tick s = .next (timeoutHandler { s with tcnt := nextCount s.tcnt })) := by
  have hm : compareMatch { s with tcnt := nextCount s.tcnt } = matchesNext s := rfl
  simp only [exec, execTick, countTick, takeInterrupt, hm]
  by_cases hr : s.tRun = true
  · by_cases hc : matchesNext s = true <;> simp [hr, hc]
  · simp [hr]

theorem exec_rise (s : State) :
    (s.echoLvl = true ∧ exec .rise s = .next (reject .edge s))
      ∨ (s.echoLvl = false ∧ capturesRising s = false
          ∧ exec .rise s = .next { s with echoLvl := true, armedHigh := false })
      ∨ (s.echoLvl = false ∧ capturesRising s = true
          ∧ exec .rise s = .next (capture s.tcnt { s with echoLvl := true, armedHigh := false })) := by
  have hc : capturesRising { s with echoLvl := true, armedHigh := false } = capturesRising s := rfl
  simp only [exec, execRise, riseReject, admitOrReject, acceptRise, hc]
  by_cases he : s.echoLvl = true
  · simp [he]
  · by_cases hr : capturesRising s = true <;> simp [he, hr]

theorem exec_fall (s : State) :
    (s.echoLvl = false ∧ exec .fall s = .next (reject .edge s))
      ∨ (s.echoLvl = true ∧ capturesFalling s = false
          ∧ exec .fall s = .next { s with echoLvl := false, armedHigh := false })
      ∨ (s.echoLvl = true ∧ capturesFalling s = true
          ∧ exec .fall s = .next (capture s.tcnt { s with echoLvl := false, armedHigh := false })) := by
  have hc : capturesFalling { s with echoLvl := false, armedHigh := false } = capturesFalling s := rfl
  simp only [exec, execFall, fallReject, admitOrReject, acceptFall, hc]
  by_cases he : s.echoLvl = true
  · by_cases hr : capturesFalling s = true <;> simp [he, hr]
  · simp [he]

theorem exec_staleRise (v : Ticks) (s : State) :
    (staleAdmitted s = false ∧ exec (.staleRise v) s = .next (reject .stale s))
      ∨ (staleAdmitted s = true ∧ exec (.staleRise v) s = .next (capture v { s with armedHigh := false })) := by
  simp only [exec, execStaleRise, staleReject, admitOrReject]
  by_cases ha : staleAdmitted s = true <;> simp [ha]

theorem exec_byte (m : Byte) (s : State) : exec (.byte m) s = .next (byteRequestHandler s) := rfl

theorem exec_ustick (s : State) : exec .ustick s = .next { s with seqDelay := countDown s.seqDelay } := rfl

/-- A stimulus always completes: accepted or rejected, it has a next state. -/
theorem exec_stimulus_next {i : Instr} (h : i.opClass = .stimulus) (s : State) : ∃ t, exec i s = .next t := by
  cases i with
  | tick => exact ⟨_, rfl⟩
  | rise => rcases exec_rise s with ⟨-, h⟩ | ⟨-, -, h⟩ | ⟨-, -, h⟩ <;> exact ⟨_, h⟩
  | fall => rcases exec_fall s with ⟨-, h⟩ | ⟨-, -, h⟩ | ⟨-, -, h⟩ <;> exact ⟨_, h⟩
  | staleRise v => rcases exec_staleRise v s with ⟨-, h⟩ | ⟨-, h⟩ <;> exact ⟨_, h⟩
  | byte m => exact ⟨_, rfl⟩
  | ustick => exact ⟨_, rfl⟩
  | reset => exact ⟨_, rfl⟩
  | trigBegin => cases h
  | trigEnd => cases h
  | arm t => cases h
  | teardown => cases h
  | quietEnd => cases h

/-- The stimulus port hands on stimuli only. -/
theorem decodePort_stimulus {w : Word} {i : Instr} (h : decodePort w = .ok i) : i.opClass = .stimulus := by
  obtain ⟨hw, hn⟩ := decodePort_ok h
  obtain ⟨o, ho, -, -, rfl⟩ := decodeWord_ok hw
  have hi := internal_byte_iff ho
  simp only [Instr.opClass, Opcode.opcode_withImm]
  cases hc : o.opClass with
  | stimulus => rfl
  | internal => exact absurd (hi.2 hc) hn

/-- A meaning's answer with its next state changed. -/
def onNext (f : State → State) : Host.Outcome State Fault Refusal → Host.Outcome State Fault Refusal
  | .next s => .next (f s)
  | .fault r => .fault r
  | .refused r => .refused r

theorem captureHandler_schedule (v : Ticks) (s : State) (r : List Move) :
    captureHandler v { s with schedule := r } = { captureHandler v s with schedule := r } := by
  obtain ⟨_, _, _, m, _⟩ := s
  cases m <;> rfl

theorem timeoutHandler_schedule (s : State) (r : List Move) :
    timeoutHandler { s with schedule := r } = { timeoutHandler s with schedule := r } := by
  obtain ⟨_, _, _, m, _⟩ := s
  cases m <;> rfl

theorem admitOrReject_schedule (why : Option RejectCode) (s a : State) (r : List Move) :
    admitOrReject why { s with schedule := r } { a with schedule := r }
      = onNext (fun t => { t with schedule := r }) (admitOrReject why s a) := by
  cases why <;> rfl

theorem onNext_whenEnabled (f : State → State) (b : Bool) (mn : String) (a : State) :
    onNext f (whenEnabled b mn a) = whenEnabled b mn (f a) := by
  cases b <;> rfl

/-- No meaning reads or writes the schedule. -/
theorem exec_schedule (i : Instr) (s : State) (r : List Move) :
    exec i { s with schedule := r } = onNext (fun t => { t with schedule := r }) (exec i s) := by
  cases i with
  | tick =>
    simp only [exec, execTick, onNext, countTick, takeInterrupt]
    congr 1
    have hm : ∀ u : State, compareMatch { u with schedule := r } = compareMatch u := fun _ => rfl
    have ht := timeoutHandler_schedule { s with tcnt := nextCount s.tcnt } r
    have hc := hm { s with tcnt := nextCount s.tcnt }
    simp only at ht hc
    rw [hc, ht]
    split
    · split <;> rfl
    · rfl
  | rise =>
    have ha : acceptRise { s with schedule := r } = { acceptRise s with schedule := r } := by
      have hc := captureHandler_schedule s.tcnt { s with echoLvl := true, armedHigh := false, icr := s.tcnt } r
      have hb : ∀ u : State, capturesRising { u with schedule := r } = capturesRising u := fun _ => rfl
      have hr := hb { s with echoLvl := true, armedHigh := false }
      simp only at hc hr
      simp only [acceptRise, capture, takeInterrupt, hc, hr]
      split <;> rfl
    simp only [exec, execRise, ha]
    exact admitOrReject_schedule (riseReject s) s (acceptRise s) r
  | fall =>
    have ha : acceptFall { s with schedule := r } = { acceptFall s with schedule := r } := by
      have hc := captureHandler_schedule s.tcnt { s with echoLvl := false, armedHigh := false, icr := s.tcnt } r
      have hb : ∀ u : State, capturesFalling { u with schedule := r } = capturesFalling u := fun _ => rfl
      have hr := hb { s with echoLvl := false, armedHigh := false }
      simp only at hc hr
      simp only [acceptFall, capture, takeInterrupt, hc, hr]
      split <;> rfl
    simp only [exec, execFall, ha]
    exact admitOrReject_schedule (fallReject s) s (acceptFall s) r
  | staleRise v =>
    have hc := captureHandler_schedule v { s with armedHigh := false, icr := v } r
    simp only at hc
    simp only [exec, execStaleRise, capture, takeInterrupt, hc]
    exact admitOrReject_schedule (staleReject s) s _ r
  | byte mosi => rfl
  | ustick => rfl
  | reset => rfl
  | trigBegin => simp only [exec, execTrigBegin, onNext_whenEnabled]; rfl
  | trigEnd => simp only [exec, execTrigEnd, onNext_whenEnabled]; rfl
  | arm n => simp only [exec, execArm, onNext_whenEnabled]; rfl
  | teardown => simp only [exec, execTeardown, onNext_whenEnabled]; rfl
  | quietEnd => simp only [exec, execQuietEnd, onNext_whenEnabled]; rfl

theorem recorded_next {ev : TraceEvent} {r : Host.Outcome State Fault Refusal} :
    recorded ev r = .next t ↔ ∃ u, r = .next u ∧ t = { u with trace := ev :: u.trace } := by
  cases r <;> simp [recorded, eq_comm]

/-- The state and the choice a step of `s` works on: the next entry of the schedule, or the sequencer's turn where
none is left. -/
def nextMove (s : State) : Move × State :=
  match s.schedule with
  | m :: rest => (m, { s with schedule := rest })
  | [] => (.sequencer, s)

/-- Everything one step can do. -/
theorem step_cases (h : step s = .next t) :
    (∃ w rest c, s.schedule = .stimulus w :: rest ∧ decodePort w = .error c
        ∧ t = { reject c { s with schedule := rest } with trace := .stimulus w (.rejected c) :: s.trace })
      ∨ (∃ w rest i u, s.schedule = .stimulus w :: rest ∧ decodePort w = .ok i
          ∧ exec i { s with schedule := rest } = .next u
          ∧ t = { u with trace := .stimulus w (stimulusOutcome w { s with schedule := rest }) :: u.trace })
      ∨ (∃ i u, (nextMove s).1 = .sequencer ∧ enabledOp s = some i
          ∧ exec i (nextMove s).2 = .next u
          ∧ t = { u with trace := .internal (encode i) :: u.trace })
      ∨ ((nextMove s).1 = .sequencer ∧ enabledOp s = none ∧ t = (nextMove s).2) := by
  unfold step takeStep at h
  split at h
  · next w rest hs =>
    unfold stimulusStep at h
    obtain ⟨u, hu, rfl⟩ := recorded_next.1 h
    split at hu
    · next c hc =>
      cases hu
      refine .inl ⟨w, rest, c, hs, hc, ?_⟩
      simp [stimulusOutcome, hc]
    · next i hi => exact .inr (.inl ⟨w, rest, i, u, hs, hi, hu, rfl⟩)
  · next rest hs =>
    have he : enabledOp { s with schedule := rest } = enabledOp s := rfl
    unfold sequencerStep at h
    rw [he] at h
    split at h
    · next i hi =>
      obtain ⟨u, hu, rfl⟩ := recorded_next.1 h
      exact .inr (.inr (.inl ⟨i, u, by simp [nextMove, hs], hi, by simpa [nextMove, hs] using hu, rfl⟩))
    · next hn =>
      cases h
      exact .inr (.inr (.inr ⟨by simp [nextMove, hs], hn, by simp [nextMove, hs]⟩))
  · next hs =>
    unfold sequencerStep at h
    split at h
    · next i hi =>
      obtain ⟨u, hu, rfl⟩ := recorded_next.1 h
      exact .inr (.inr (.inl ⟨i, u, by simp [nextMove, hs], hi, by simpa [nextMove, hs] using hu, rfl⟩))
    · next hn =>
      cases h
      exact .inr (.inr (.inr ⟨by simp [nextMove, hs], hn, by simp [nextMove, hs]⟩))

end Sys2Proof.Machine
end

