-- ==== Sys2Proof/Laws/Runs.lean ====
section
/-! SUPPORT. What no meaning touches (the configuration, the trace), what a stimulus other than RESET leaves alone,
what one move of the scheduling law can do, and the runs made of moves. -/

namespace Sys2Proof.Safety

open Sys2Proof.Machine

variable {s t : State}

/-- A capture changes the measurement registers and the published pair, and nothing else. -/
theorem capture_frame (v : Ticks) (s : State) :
    (capture v s).seqPhase = s.seqPhase ∧ (capture v s).seqDelay = s.seqDelay ∧ (capture v s).trig = s.trig
      ∧ (capture v s).tcnt = s.tcnt ∧ (capture v s).tcmp = s.tcmp ∧ (capture v s).tRun = s.tRun
      ∧ (capture v s).capEn = s.capEn ∧ (capture v s).cmpEn = s.cmpEn ∧ (capture v s).echoLvl = s.echoLvl
      ∧ (capture v s).armedHigh = s.armedHigh ∧ (capture v s).lastTx = s.lastTx ∧ (capture v s).fault = s.fault
      ∧ (capture v s).faultCode = s.faultCode ∧ (capture v s).params = s.params ∧ (capture v s).trace = s.trace := by
  rcases capture_cases v s with ⟨-, e⟩ | ⟨-, e⟩ | ⟨-, e⟩ <;> rw [e] <;> simp

/-- The timeout handler changes the measurement state and the published pair, and nothing else. -/
theorem timeoutHandler_frame (s : State) :
    (timeoutHandler s).seqPhase = s.seqPhase ∧ (timeoutHandler s).seqDelay = s.seqDelay
      ∧ (timeoutHandler s).trig = s.trig ∧ (timeoutHandler s).tcnt = s.tcnt ∧ (timeoutHandler s).tcmp = s.tcmp
      ∧ (timeoutHandler s).lastTx = s.lastTx ∧ (timeoutHandler s).fault = s.fault
      ∧ (timeoutHandler s).faultCode = s.faultCode ∧ (timeoutHandler s).params = s.params
      ∧ (timeoutHandler s).trace = s.trace := by
  rcases timeoutHandler_cases s with ⟨-, e⟩ | ⟨-, e⟩ <;> rw [e] <;> simp

/-- No meaning changes the configuration or writes the trace. -/
theorem exec_frame {i : Instr} (h : exec i s = .next t) : t.params = s.params ∧ t.trace = s.trace := by
  have cap : ∀ (v : Ticks) (u : State), (capture v u).params = u.params ∧ (capture v u).trace = u.trace :=
    fun v u => (capture_frame v u).2.2.2.2.2.2.2.2.2.2.2.2.2
  cases i with
  | tick =>
    rcases exec_tick s with ⟨-, e⟩ | ⟨-, -, e⟩ | ⟨-, -, e⟩ <;> rw [e] at h <;> cases h
    · exact ⟨rfl, rfl⟩
    · exact ⟨rfl, rfl⟩
    · exact (timeoutHandler_frame _).2.2.2.2.2.2.2.2
  | rise =>
    rcases exec_rise s with ⟨-, e⟩ | ⟨-, -, e⟩ | ⟨-, -, e⟩ <;> rw [e] at h <;> cases h <;>
      first | exact ⟨rfl, rfl⟩ | exact cap _ _
  | fall =>
    rcases exec_fall s with ⟨-, e⟩ | ⟨-, -, e⟩ | ⟨-, -, e⟩ <;> rw [e] at h <;> cases h <;>
      first | exact ⟨rfl, rfl⟩ | exact cap _ _
  | staleRise v =>
    rcases exec_staleRise v s with ⟨-, e⟩ | ⟨-, e⟩ <;> rw [e] at h <;> cases h <;>
      first | exact ⟨rfl, rfl⟩ | exact cap _ _
  | byte m => cases h; exact ⟨rfl, rfl⟩
  | ustick => cases h; exact ⟨rfl, rfl⟩
  | reset => cases h; exact ⟨rfl, rfl⟩
  | trigBegin => obtain ⟨-, rfl⟩ := whenEnabled_next.1 h; exact ⟨rfl, rfl⟩
  | trigEnd => obtain ⟨-, rfl⟩ := whenEnabled_next.1 h; exact ⟨rfl, rfl⟩
  | arm n => obtain ⟨-, rfl⟩ := whenEnabled_next.1 h; exact ⟨rfl, rfl⟩
  | teardown => obtain ⟨-, rfl⟩ := whenEnabled_next.1 h; exact ⟨rfl, rfl⟩
  | quietEnd => obtain ⟨-, rfl⟩ := whenEnabled_next.1 h; exact ⟨rfl, rfl⟩

/-- A stimulus other than RESET leaves the sequencer's phase and the trigger, USTICK alone touches the delay, and a
fault once set stays with its code. -/
theorem stimulus_frame {i : Instr} (hc : i.opClass = .stimulus) (hi : i ≠ .reset) (h : exec i s = .next t) :
    t.seqPhase = s.seqPhase ∧ t.trig = s.trig ∧ (i ≠ .ustick → t.seqDelay = s.seqDelay)
      ∧ (i = .ustick → t = { s with seqDelay := countDown s.seqDelay })
      ∧ (s.fault = true → t.fault = true ∧ t.faultCode = s.faultCode) := by
  cases i with
  | tick =>
    rcases exec_tick s with ⟨-, e⟩ | ⟨-, -, e⟩ | ⟨-, -, e⟩ <;> rw [e] at h <;> cases h
    · simp
    · simp
    · obtain ⟨hp, hd, ht, -, -, -, hf, hc, -, -⟩ := timeoutHandler_frame { s with tcnt := nextCount s.tcnt }
      exact ⟨hp, ht, fun _ => hd, nofun, fun h => ⟨hf.trans h, hc⟩⟩
  | rise =>
    obtain ⟨hp, hd, ht, -, -, -, -, -, -, -, -, hf, hc, -, -⟩ :=
      capture_frame s.tcnt { s with echoLvl := true, armedHigh := false }
    rcases exec_rise s with ⟨-, e⟩ | ⟨-, -, e⟩ | ⟨-, -, e⟩ <;> rw [e] at h <;> cases h
    · exact ⟨rfl, rfl, fun _ => rfl, nofun, fun h => by simp [h]⟩
    · exact ⟨rfl, rfl, fun _ => rfl, nofun, fun h => ⟨h, rfl⟩⟩
    · exact ⟨hp, ht, fun _ => hd, nofun, fun h => ⟨hf.trans h, hc⟩⟩
  | fall =>
    obtain ⟨hp, hd, ht, -, -, -, -, -, -, -, -, hf, hc, -, -⟩ :=
      capture_frame s.tcnt { s with echoLvl := false, armedHigh := false }
    rcases exec_fall s with ⟨-, e⟩ | ⟨-, -, e⟩ | ⟨-, -, e⟩ <;> rw [e] at h <;> cases h
    · exact ⟨rfl, rfl, fun _ => rfl, nofun, fun h => by simp [h]⟩
    · exact ⟨rfl, rfl, fun _ => rfl, nofun, fun h => ⟨h, rfl⟩⟩
    · exact ⟨hp, ht, fun _ => hd, nofun, fun h => ⟨hf.trans h, hc⟩⟩
  | staleRise v =>
    obtain ⟨hp, hd, ht, -, -, -, -, -, -, -, -, hf, hc, -, -⟩ :=
      capture_frame v { s with armedHigh := false }
    rcases exec_staleRise v s with ⟨-, e⟩ | ⟨-, e⟩ <;> rw [e] at h <;> cases h
    · exact ⟨rfl, rfl, fun _ => rfl, nofun, fun h => by simp [h]⟩
    · exact ⟨hp, ht, fun _ => hd, nofun, fun h => ⟨hf.trans h, hc⟩⟩
  | byte m => cases h; simp [takeInterrupt]
  | ustick => cases h; simp
  | reset => simp at hi
  | trigBegin => cases hc
  | trigEnd => cases hc
  | arm n => cases hc
  | teardown => cases hc
  | quietEnd => cases hc

/-- A stimulus its admission check turns away is rejected with that check's code. -/
theorem exec_of_admissionReject {i : Instr} {c : RejectCode} (h : admissionReject i s = some c) :
    exec i s = .next (reject c s) := by
  cases i <;> simp [admissionReject] at h <;> simp [exec, execRise, execFall, execStaleRise, h, admitOrReject]

theorem admissionReject_schedule (i : Instr) (s : State) (r : List Move) :
    admissionReject i { s with schedule := r } = admissionReject i s := by
  cases i <;> rfl

theorem raisedInterrupt_schedule (i : Instr) (s : State) (r : List Move) :
    raisedInterrupt i { s with schedule := r } = raisedInterrupt i s := by
  cases i <;> rfl

/-- On the sequencer's turn what a step performs is the enabled operation. -/
theorem performed_of_sequencer (h : (nextMove s).1 = .sequencer) : performed s = enabledOp s := by
  unfold nextMove at h
  unfold performed
  split at h
  · next m rest hs => simp at h; subst h; simp only [hs]
  · next hs => simp [hs]

/-- Everything one move of the scheduling law can do. -/
theorem moveStep_cases {m : Move} (h : moveStep m s = .next t) :
    (∃ w c, m = .stimulus w ∧ decodePort w = .error c
        ∧ t = { reject c { s with schedule := [] } with trace := .stimulus w (.rejected c) :: s.trace })
      ∨ (∃ w i u, m = .stimulus w ∧ decodePort w = .ok i ∧ exec i { s with schedule := [] } = .next u
          ∧ t = { u with trace := .stimulus w (stimulusOutcome w { s with schedule := [] }) :: u.trace })
      ∨ (∃ i u, m = .sequencer ∧ enabledOp s = some i ∧ exec i { s with schedule := [] } = .next u
          ∧ t = { u with trace := .internal (encode i) :: u.trace })
      ∨ (m = .sequencer ∧ enabledOp s = none ∧ t = { s with schedule := [] }) := by
  rcases step_cases h with ⟨w, rest, c, hs, hd, rfl⟩ | ⟨w, rest, i, u, hs, hd, he, rfl⟩ | ⟨i, u, hn, hen, he, rfl⟩
    | ⟨hn, hen, rfl⟩
  · simp at hs; obtain ⟨rfl, rfl⟩ := hs; exact .inl ⟨w, c, rfl, hd, rfl⟩
  · simp at hs; obtain ⟨rfl, rfl⟩ := hs; exact .inr (.inl ⟨w, i, u, rfl, hd, he, rfl⟩)
  · simp [nextMove] at hn; subst hn; exact .inr (.inr (.inl ⟨i, u, rfl, hen, he, rfl⟩))
  · simp [nextMove] at hn; subst hn; exact .inr (.inr (.inr ⟨rfl, hen, rfl⟩))

/-- A run over joined lists of moves is a run over the first and then one over the second. -/
theorem runs_append {a b : List Move} : ∀ {s t : State}, Runs (a ++ b) s t ↔ ∃ u, Runs a s u ∧ Runs b u t := by
  induction a with
  | nil => intro s t; simp [Runs]
  | cons m a ih =>
    intro s t
    simp only [List.cons_append, Runs, ih]
    constructor
    · rintro ⟨u, hu, v, hv, h⟩; exact ⟨v, ⟨u, hu, hv⟩, h⟩
    · rintro ⟨v, ⟨u, hu, hv⟩, h⟩; exact ⟨u, hu, v, hv, h⟩

/-- The pair of a value's two bytes is the value (R62). -/
theorem pair_bytes (d : Ticks) : pair (highByte d) (lowByte d) = d := by
  apply BitVec.eq_of_getLsbD_eq
  intro k hk
  unfold highByte lowByte pair
  rw [BitVec.getLsbD_append]
  by_cases h8 : k < 8
  · simp [h8, hk]
  · rw [if_neg h8]
    simp only [BitVec.getLsbD_extractLsb', show k - 8 < 8 by omega, show 8 + (k - 8) = k by omega]
    simp

end Sys2Proof.Safety
end

