-- ==== Sys2Proof/Tests/Slice0.lean ====
section
/-! SUPPORT. The model's own tests. Expected results come from the vectors of spec/95_test_vectors.md, from the
examples of the rules, or from the encodings of R83 to R90 written out by hand. The witnesses at the end show, for
every statement that has hypotheses, a state and operands that meet them. -/

namespace Sys2Proof.Tests

open Sys2Proof.Machine Sys2Proof.Safety

/-! ## Well-formedness: each check refuses an ill-formed term -/

theorem test_wf_defaults_admitted : Params.defaults.wf = true ∧ ParamRequest.admitted ⟨40000, 10, 200, true⟩ = true := by
  decide

theorem test_wf_zero_timeout_refused : ParamRequest.admitted ⟨0, 10, 200, true⟩ = false := by decide
theorem test_wf_wide_timeout_refused : ParamRequest.admitted ⟨65536, 10, 200, true⟩ = false := by decide
theorem test_wf_zero_pulse_refused : ParamRequest.admitted ⟨40000, 0, 200, true⟩ = false := by decide
theorem test_wf_wide_pulse_refused : ParamRequest.admitted ⟨40000, 65536, 200, true⟩ = false := by decide
theorem test_wf_wide_quiet_refused : ParamRequest.admitted ⟨40000, 10, 65536, true⟩ = false := by decide
theorem test_wf_bounds_admitted :
    ParamRequest.admitted ⟨1, 1, 0, false⟩ = true ∧ ParamRequest.admitted ⟨65535, 65535, 65535, true⟩ = true := by decide
theorem test_wf_params_zero_timeout_refused : Params.wf ⟨0, 10, 200, true⟩ = false := by decide
theorem test_wf_params_zero_pulse_refused : Params.wf ⟨40000, 0, 200, true⟩ = false := by decide
theorem test_wf_arm_other_operand_refused : Instr.wf Params.defaults (.arm 39999) = false := by decide
theorem test_wf_arm_timeout_admitted : Instr.wf Params.defaults (.arm 40000) = true := by decide

/-! ## Decoding: one word of every row, written out from R80, R83 and the examples of R88 and R89 -/

theorem test_decode_tick : decodeTableWord 32 0x01000000 = some .tick := by decide
theorem test_decode_rise : decodeTableWord 32 0x02000000 = some .rise := by decide
theorem test_decode_fall : decodeTableWord 32 0x03000000 = some .fall := by decide
theorem test_decode_staleRise : decodeTableWord 32 0x04001234 = some (.staleRise 0x1234) := by decide
theorem test_decode_byte : decodeTableWord 32 0x050000AB = some (.byte 0xAB) := by decide
theorem test_decode_ustick : decodeTableWord 32 0x06000000 = some .ustick := by decide
theorem test_decode_reset : decodeTableWord 32 0x07000000 = some .reset := by decide
theorem test_decode_trigBegin : decodeTableWord 32 0x10000000 = some .trigBegin := by decide
theorem test_decode_trigEnd : decodeTableWord 32 0x11000000 = some .trigEnd := by decide
theorem test_decode_arm : decodeTableWord 32 0x12009C40 = some (.arm 40000) := by decide
theorem test_decode_teardown : decodeTableWord 32 0x13000000 = some .teardown := by decide
theorem test_decode_quietEnd : decodeTableWord 32 0x14000000 = some .quietEnd := by decide
theorem test_decode_table_refuses :
    decodeTableWord 32 0x15000000 = none ∧ decodeTableWord 32 0x11000001 = none ∧ decodeTableWord 32 0x12010000 = none
      ∧ decodeTableWord 33 0x101000000 = none := by decide

/-- L2.1: the rejects of the stimulus port's decoder, with their precedence (R312). -/
theorem test_port_rejects :
    [0x00000000, 0x08000000, 0x15000000, 0xFF000000, 0x10000000, 0x12009C40, 0x14FF0000, 0x00FF0000, 0x01010000,
      0x01000001, 0x07000001, 0x05000100, 0x04010000].map (fun w : Word =>
        match decodePort w with
        | .error c => c.code
        | .ok _ => 0)
      = [1, 1, 1, 1, 2, 2, 2, 1, 3, 3, 3, 3, 3] := by decide

/-! ## The assembler (R89, R90) -/

theorem test_assemble_examples :
    assemble Params.defaults "STALE_RISE #0x1234 ; a comment\nBYTE\nBYTE #0xAB\n\n.word 0x12009C40".toList
      = some [0x04001234, 0x05000000, 0x050000AB, 0x12009C40] := by decide

theorem test_assemble_pseudo :
    assemble Params.defaults "TICK 2\nECHO 1, 2\nPOLL\nTICK 0".toList
      = some [0x01000000, 0x01000000, 0x01000000, 0x02000000, 0x01000000, 0x01000000, 0x03000000, 0x05000000,
        0x05000000] := by decide

theorem test_assemble_internal_only_in_traces :
    assemble Params.defaults "*ARM #40000".toList = none
      ∧ assembleTrace Params.defaults "*TRIG_END\n*ARM #40000".toList = some [0x11000000, 0x12009C40] := by decide

theorem test_text_of_operations :
    [instrText .tick, instrText (.byte 171), instrText (.arm 40000)] = ["TICK", "BYTE #171", "*ARM #40000"] := by decide

/-! ## One step of each operation (L2.2 to L2.7, default parameters) -/

/-- The state an operation leaves, if it has a next one. -/
def after (i : Instr) (s : State) : Option State :=
  match exec i s with
  | .next t => some t
  | .fault _ => none
  | .refused _ => none

/-- The state one step leaves, if there is one. -/
def stepped (s : State) : Option State :=
  match step s with
  | .next t => some t
  | .fault _ => none
  | .refused _ => none

/-- The reset state of a configuration, with the echo line low. -/
def idle (p : Params) : State := State.afterReset p false

/-- PULSE with a delay still to run. -/
def pulse (p : Params) (d : Ticks) : State := { idle p with seqPhase := .pulse, trig := true, seqDelay := d }

/-- ARMING with the echo line at a level. -/
def arming (p : Params) (echo : Bool) : State := { idle p with seqPhase := .arming, echoLvl := echo }

/-- WAIT with the timer armed, in AwaitRise, the counter at `n`. -/
def awaitRise (p : Params) (n : Ticks) : State :=
  { idle p with
    seqPhase := .wait, measState := .awaitRise, tcnt := n, tcmp := p.timeoutTicks
    tRun := true, capEn := true, cmpEn := true }

/-- AwaitRise on a line that was high at ARM (TCTRL 0x37). -/
def armedHigh (p : Params) : State := { awaitRise p 0 with echoLvl := true, armedHigh := true }

/-- AwaitFall after a rise at `r`, the counter at `n`. -/
def awaitFall (p : Params) (r n : Ticks) : State :=
  { awaitRise p n with
    measState := .awaitFall, edgePhase := 1, capPol := .falling, echoLvl := true, riseTicks := r, icr := r }

/-- Resolved with the Distance 10 published, the counter at `n`. -/
def resolved (p : Params) (n : Ticks) : State :=
  { awaitRise p n with
    measState := .resolved, edgePhase := 2, cycleComplete := true, riseTicks := 50, icr := 60
    distance := 10, pubHi := 0, pubLo := 10 }

/-- TimedOut from AwaitRise, the counter at `n`. -/
def timedOut (p : Params) (n : Ticks) : State := { awaitRise p n with measState := .timedOut, cycleComplete := true }

/-- QUIET with a delay still to run. -/
def quiet (p : Params) (d : Ticks) : State := { idle p with seqPhase := .quiet, seqDelay := d }

/-- A published pair 0x02, 0x7C, the next byte at position `sel`. -/
def published (p : Params) (sel : ByteSel) : State :=
  { pulse p 5 with distance := 0x027C, pubHi := 0x02, pubLo := 0x7C, byteSel := sel, lastTx := 0x02 }

theorem test_trigBegin_from_reset :
    (after .trigBegin State.reset).map (fun t => (status t, t.seqDelay, t.trig)) = some (0x0180, 10, true) := by decide

theorem test_trigEnd_lowers_trigger :
    (after .trigEnd (pulse .defaults 0)).map (fun t => (status t, t.trig)) = some (0x0200, false) := by decide

theorem test_ustick_counts_down : (after .ustick (pulse .defaults 10)).map State.seqDelay = some 9 := by decide

theorem test_ustick_never_wraps : after .ustick (pulse .defaults 0) = some (pulse .defaults 0) := by decide

theorem test_arm_low_line :
    (after (.arm 40000) { arming .defaults false with tcnt := 7, icr := 7, riseTicks := 7 }).map
        (fun t => (t.tcnt, t.tcmp, t.icr, t.riseTicks, tctrl t, status t))
      = some (0, 40000, 0, 0, 0x07, 0x0301) := by decide

theorem test_arm_high_line : (after (.arm 40000) (arming .defaults true)).map tctrl = some 0x37 := by decide

theorem test_tick_times_out :
    (after .tick { awaitRise .defaults 39999 with distance := 1400 }).map (fun t => (t.tcnt, status t, t.distance))
      = some (40000, 0x0324, 0) := by decide

theorem test_tick_wraps_unseen :
    after .tick (timedOut .defaults 0xFFFF) = some (timedOut .defaults 0)
      ∧ after .tick (timedOut .defaults 39999) = some (timedOut .defaults 40000) := by decide

theorem test_rise_captured :
    (after .rise (awaitRise .defaults 100)).map (fun t => (t.icr, t.riseTicks, tctrl t, status t))
      = some (100, 100, 0x1F, 0x030A) := by decide

theorem test_rise_resolved_discarded :
    after .rise (resolved .defaults 1600) = some { resolved .defaults 1600 with icr := 1600, echoLvl := true } := by
  decide

theorem test_fall_resolves :
    (after .fall (awaitFall .defaults 100 1500)).map (fun t => (t.icr, t.distance, t.pubHi, t.capPol, status t))
      = some (1500, 0x0578, 0x05, .rising, 0x0333) := by decide

theorem test_fall_filtered :
    after .fall (armedHigh .defaults) = some { armedHigh .defaults with echoLvl := false, armedHigh := false } := by
  decide

theorem test_staleRise_captured :
    (after (.staleRise 0) (armedHigh .defaults)).map (fun t => (t.armedHigh, t.icr, t.riseTicks, t.measState, t.echoLvl))
      = some (false, 0, 0, .awaitFall, true) := by decide

theorem test_staleRise_rejected_without_parameter :
    (after (.staleRise 0) (armedHigh { Params.defaults with staleEdgeCapture := false })).map State.faultCode
      = some 5 := by decide

theorem test_byte_serves_high_then_low :
    (after (.byte 0xAB) (published .defaults .hi)).map (fun t => (t.lastTx, t.byteSel)) = some (0x02, .lo)
      ∧ (after (.byte 0xCD) (published .defaults .lo)).map (fun t => (t.lastTx, t.byteSel)) = some (0x7C, .hi) := by
  decide

theorem test_byte_step_emits :
    (stepped { published .defaults .hi with schedule := [.stimulus 0x050000FF] }).map State.trace
      = some [.stimulus 0x050000FF (.accepted (some 0x02))] := by decide

theorem test_teardown :
    (after .teardown (resolved .defaults 60)).map (fun t => (tctrl t, status t, t.seqDelay, t.distance, t.tcnt))
      = some (0x00, 0x0400, 200, 10, 60) := by decide

theorem test_quietEnd : (after .quietEnd (quiet .defaults 0)).map State.seqPhase = some .idle := by decide

theorem test_reset_line_high :
    (after .reset { awaitFall .defaults 100 200 with fault := true, faultCode := 4, distance := 9, pubLo := 9 }).map
        (fun t => (status t, tctrl t, t.distance, t.pubLo))
      = some (0x0000, 0x10, 0, 0) := by decide

theorem test_reset_during_pulse : (after .reset (pulse .defaults 4)).map (fun t => (t.trig, t.seqDelay)) = some (false, 0) := by
  decide

/-- L2.1, stickiness: the second reject keeps the first code. -/
theorem test_reject_keeps_first_code :
    ((stepped { idle .defaults with schedule := [.stimulus 0x01010000, .stimulus 0x00000000] }).bind stepped).map
        (fun t => (t.fault, t.faultCode, t.tcnt, t.byteSel))
      = some (true, 3, 0, .hi) := by decide

/-- L2.4: the distance function. -/
theorem test_distance_vectors :
    [(100, 1500), (0, 0), (5, 5), (0, 39999), (50, 60), (255, 511), (65000, 100), (1, 0), (0, 65534)].map
        (fun p : Ticks × Ticks => tickDistance p.1 p.2)
      = [1400, 0, 0, 39999, 10, 256, 636, 65535, 65534] := by decide

/-- The high and low bytes of R62's rule; 1400 is 0x0578 (log entry 8). -/
theorem test_pair_of_1400 : (highByte 1400, lowByte 1400, pair 5 120) = (5, 120, 1400) := by decide

/-! ## Placing a word for the next step -/

/-- Placed after reset, every row's word is what the next step records. -/
theorem test_placed_words_run :
    [0x01000000, 0x02000000, 0x03000000, 0x04000000, 0x05000000, 0x06000000, 0x07000000, 0x10000000, 0x11000000,
      0x12000000, 0x13000000, 0x14000000].map (fun w => (stepped (State.reset.withFetchWord 32 w)).map State.trace)
      = [some [.stimulus 0x01000000 (.accepted none)], some [.stimulus 0x02000000 (.accepted none)],
        some [.stimulus 0x03000000 (.rejected .edge)], some [.stimulus 0x04000000 (.rejected .stale)],
        some [.stimulus 0x05000000 (.accepted (some 0))], some [.stimulus 0x06000000 (.accepted none)],
        some [.stimulus 0x07000000 (.accepted none)], some [.internal 0x10000000], some [.internal 0x11000000],
        some [.internal 0x12000000], some [.internal 0x13000000], some [.internal 0x14000000]] := by decide

/-! ## Witnesses: states and operands that meet the hypotheses of the statements -/

/-- A small configuration: timeout after 2 TICKs, a pulse and a quiet period of one microsecond. -/
def small : Params := { timeoutTicks := 2, trigPulseUs := 1, quietUs := 1, staleEdgeCapture := true }

/-- `s` with the given choices to come. -/
def choosing (ms : List Move) (s : State) : State := { s with schedule := ms }

theorem witness_encodeOfDecode : decodeWord 0x050000AB = .ok (.byte 0xAB) := by rfl

theorem witness_opcodeTable :
    (0x0400FFFF : Word) &&& Opcode.staleRise.mask = Opcode.staleRise.pattern
      ∧ (0x01000000 : Word) &&& Opcode.tick.mask = Opcode.tick.pattern := by decide

/-- Words at the ends of each range of R86. -/
theorem witness_portRejects :
    (choosing [.stimulus 0x00000000] (idle small)).schedule = .stimulus 0x00000000 :: []
      ∧ ([0x00000000, 0x08000000, 0x0F000000, 0x15000000, 0xFF000000].all fun w : Word =>
          decide ((opcField w).toNat = 0x00 ∨ (0x08 ≤ (opcField w).toNat ∧ (opcField w).toNat ≤ 0x0F)
            ∨ 0x15 ≤ (opcField w).toNat)) = true
      ∧ ([0x10000000, 0x14000000].all fun w : Word =>
          decide (0x10 ≤ (opcField w).toNat ∧ (opcField w).toNat ≤ 0x14)) = true
      ∧ ([0x01010000, 0x07FF0000, 0x01000001, 0x07008000, 0x05000100, 0x0500FF00, 0x04010000].all fun w : Word =>
          decide ((0x01 ≤ (opcField w).toNat ∧ (opcField w).toNat ≤ 0x07)
            ∧ (rsvField w ≠ 0 ∨ ((opcField w).toNat = 0x05 ∧ 0x100 ≤ (immField w).toNat)
              ∨ ((opcField w).toNat ≠ 0x04 ∧ (opcField w).toNat ≠ 0x05 ∧ immField w ≠ 0)))) = true := by decide

theorem witness_stepRunsStimulus :
    (choosing [.stimulus 0x01000000] (idle small)).schedule = .stimulus 0x01000000 :: []
      ∧ decodePort 0x01000000 = .ok .tick ∧ exec .tick (idle small) = .next (idle small) := ⟨rfl, rfl, rfl⟩

theorem witness_stepRunsEnabled :
    (choosing [.sequencer] (idle small)).schedule = .sequencer :: [] ∧ (idle small).schedule = []
      ∧ enabledOp (idle small) = some .trigBegin
      ∧ exec .trigBegin (idle small) = .next (pulse small 1)
      ∧ enabledOp (pulse small 1) = none := ⟨rfl, rfl, rfl, rfl, rfl⟩

theorem witness_placedWord :
    Instr.tick.opClass = .stimulus ∧ exec .tick (idle small) = .next (idle small)
      ∧ (Instr.arm 65535).opClass = .internal := ⟨rfl, rfl, rfl⟩

/-- Every row of R203, with the delay at 0, 1 and its largest value. -/
theorem witness_enablingTable :
    (idle small).seqPhase = .idle ∧ (pulse small 0).seqPhase = .pulse ∧ (pulse small 0).seqDelay = 0
      ∧ (pulse small 1).seqDelay ≠ 0 ∧ (pulse small 65535).seqDelay ≠ 0 ∧ (arming small true).seqPhase = .arming
      ∧ (resolved small 1).seqPhase = .wait ∧ (resolved small 1).cycleComplete = true
      ∧ (awaitRise small 0).seqPhase = .wait ∧ (awaitRise small 0).cycleComplete = false
      ∧ (quiet small 0).seqPhase = .quiet ∧ (quiet small 0).seqDelay = 0 ∧ (quiet small 65535).seqDelay ≠ 0
      ∧ (Instr.arm 2).opClass = .internal ∧ (Instr.arm 2).wf small = true := by decide

theorem witness_disabled :
    (quiet small 0).seqPhase ≠ .idle ∧ ¬ ((pulse small 1).seqPhase = .pulse ∧ (pulse small 1).seqDelay = 0)
      ∧ (idle small).seqPhase ≠ .arming
      ∧ ¬ ((awaitFall small 0 1).seqPhase = .wait ∧ (awaitFall small 0 1).cycleComplete = true)
      ∧ ¬ ((quiet small 1).seqPhase = .quiet ∧ (quiet small 1).seqDelay = 0) := by decide

theorem witness_internalOperations :
    (idle small).seqPhase = .idle ∧ ((pulse small 0).seqPhase = .pulse ∧ (pulse small 0).seqDelay = 0)
      ∧ (arming small false).seqPhase = .arming
      ∧ ((timedOut small 2).seqPhase = .wait ∧ (timedOut small 2).cycleComplete = true)
      ∧ ((quiet small 0).seqPhase = .quiet ∧ (quiet small 0).seqDelay = 0) := by decide

theorem witness_ustick : (pulse small 65535).seqDelay ≠ 0 ∧ (pulse small 1).seqDelay ≠ 0 ∧ (pulse small 0).seqDelay = 0 := by
  decide

theorem witness_disarm : (awaitRise small 1).echoLvl = false ∧ (awaitFall small 0 1).echoLvl = true := by decide

/-- A TICK with the counter stopped, one short of the match, at the match, and at the match with the compare off. -/
theorem witness_tick :
    (idle small).tRun = false
      ∧ ((awaitRise small 0).tRun = true ∧ ¬ ((awaitRise small 0).cmpEn = true ∧ (awaitRise small 0).tcnt + 1 = (awaitRise small 0).tcmp))
      ∧ ((awaitRise small 1).tRun = true ∧ (awaitRise small 1).cmpEn = true ∧ (awaitRise small 1).tcnt + 1 = (awaitRise small 1).tcmp) := by
  decide

theorem witness_rise :
    (awaitFall small 0 1).echoLvl = true
      ∧ ((idle small).echoLvl = false ∧ ¬ ((idle small).capEn = true ∧ (idle small).capPol = .rising))
      ∧ ((awaitRise small 0).echoLvl = false ∧ (awaitRise small 0).capEn = true ∧ (awaitRise small 0).capPol = .rising) := by
  decide

theorem witness_fall :
    (idle small).echoLvl = false
      ∧ ((armedHigh small).echoLvl = true ∧ ¬ ((armedHigh small).capEn = true ∧ (armedHigh small).capPol = .falling))
      ∧ ((awaitFall small 0 1).echoLvl = true ∧ (awaitFall small 0 1).capEn = true ∧ (awaitFall small 0 1).capPol = .falling) := by
  decide

theorem witness_staleRise :
    ((armedHigh small).params.staleEdgeCapture = true ∧ (armedHigh small).armedHigh = true
        ∧ (armedHigh small).capEn = true ∧ (armedHigh small).capPol = .rising)
      ∧ ¬ ((awaitFall small 0 1).params.staleEdgeCapture = true ∧ (awaitFall small 0 1).armedHigh = true
        ∧ (awaitFall small 0 1).capEn = true ∧ (awaitFall small 0 1).capPol = .rising) := by decide

/-- A state for each clause of the two handlers. -/
theorem witness_handlers :
    (awaitRise small 0).measState = .awaitRise ∧ (awaitFall small 0 1).measState = .awaitFall
      ∧ (idle small).measState = .idle ∧ (resolved small 1).measState = .resolved
      ∧ (timedOut small 2).measState = .timedOut := by decide

theorem witness_byte :
    (published small .hi).byteSel = .hi ∧ (published small .lo).byteSel = .lo
      ∧ (choosing [.stimulus 0x050000FF] (idle small)).schedule = .stimulus 0x050000FF :: [] := by decide

theorem witness_byteStep : decodePort 0x050000FF = .ok (.byte 0xFF) := by rfl

/-- Requests at both ends of R9's ranges, and just outside each. -/
theorem witness_launch :
    ([⟨1, 1, 0, true⟩, ⟨65535, 65535, 65535, false⟩] : List ParamRequest).all (fun r =>
        decide ((1 ≤ r.timeoutTicks ∧ r.timeoutTicks ≤ 65535) ∧ (1 ≤ r.trigPulseUs ∧ r.trigPulseUs ≤ 65535)
          ∧ r.quietUs ≤ 65535)) = true
      ∧ ([⟨0, 1, 0, true⟩, ⟨65536, 1, 0, true⟩, ⟨1, 0, 0, true⟩, ⟨1, 65536, 0, true⟩, ⟨1, 1, 65536, true⟩]
          : List ParamRequest).all (fun r =>
        decide (¬ ((1 ≤ r.timeoutTicks ∧ r.timeoutTicks ≤ 65535) ∧ (1 ≤ r.trigPulseUs ∧ r.trigPulseUs ≤ 65535)
          ∧ r.quietUs ≤ 65535))) = true := by decide

theorem witness_rejectedStimulus :
    (choosing [.stimulus 0x03000000] (idle small)).schedule = .stimulus 0x03000000 :: []
      ∧ stimulusOutcome 0x03000000 (choosing [] (idle small)) = .rejected .edge
      ∧ Instr.trigBegin.opClass = .internal ∧ exec .trigBegin (idle small) = .next (pulse small 1) :=
  ⟨rfl, by decide, rfl, rfl⟩

/-- The reset state of `small` after a rejected stimulus. -/
def faulted : State := reject .edge (idle small)

theorem witness_stickyFault :
    (∃ t, step (choosing [.stimulus 0x01000000] faulted) = .next t) ∧ faulted.fault = true
      ∧ performed (choosing [.stimulus 0x01000000] faulted) ≠ some .reset
      ∧ (∃ t, step (choosing [.stimulus 0x07000000] faulted) = .next t)
      ∧ performed (choosing [.stimulus 0x07000000] faulted) = some .reset
      ∧ (∃ t, step (choosing [.stimulus 0x03000000] (idle small)) = .next t) ∧ InContract (idle small) :=
  ⟨⟨_, rfl⟩, rfl, by decide, ⟨_, rfl⟩, by decide, ⟨_, rfl⟩, rfl⟩

theorem witness_distance :
    ((0 : Ticks).toNat ≤ (65535 : Ticks).toNat ∧ (5 : Ticks).toNat ≤ (5 : Ticks).toNat)
      ∧ ((0 : Ticks).toNat < (1 : Ticks).toNat ∧ (0 : Ticks).toNat < (65535 : Ticks).toNat) := by decide

theorem witness_cleanLaunch :
    CleanLaunch small true (choosing [.stimulus 0x01000000] (State.afterReset small true)) := ⟨by decide, rfl⟩

/-- The couplings, unfolded to questions `decide` can answer. -/
theorem coupled_of {s : State} (config : s.params.wf = true)
    (phase : (s.seqPhase = .wait ↔ s.measState ≠ .idle) ∧ (s.tRun = true ↔ s.seqPhase = .wait)
      ∧ (s.capEn = true ↔ s.seqPhase = .wait) ∧ (s.cmpEn = true ↔ s.seqPhase = .wait)
      ∧ (s.trig = true ↔ s.seqPhase = .pulse))
    (edge : (s.edgePhase = 1 ↔ s.measState = .awaitFall) ∧ (s.edgePhase = 2 ↔ s.measState = .resolved)
      ∧ s.edgePhase ≠ 3 ∧ (s.cycleComplete = true ↔ s.measState = .resolved ∨ s.measState = .timedOut))
    (polarity : (s.measState = .awaitRise → s.capPol = .rising) ∧ (s.measState = .awaitFall → s.capPol = .falling)
      ∧ (s.measState = .resolved → s.capPol = .rising))
    (counter : s.measState.awaiting = true → s.tcnt < s.tcmp ∧ s.tcmp = s.params.timeoutTicks)
    (pairs : pair s.pubHi s.pubLo = s.distance)
    (delay : (s.seqPhase = .idle ∨ s.seqPhase = .arming ∨ s.seqPhase = .wait → s.seqDelay = 0)
      ∧ (s.armedHigh = true → s.seqPhase = .wait ∧ s.echoLvl = true) ∧ (s.fault = false ↔ s.faultCode = 0))
    (position : s.byteSel = .lo → s.lastTx = s.pubHi) : Coupled s :=
  ⟨config, phase, edge, polarity, counter, pairs, delay, position⟩

theorem coupled_idle : Coupled (idle small) := by apply coupled_of <;> decide
theorem coupled_awaitRise : Coupled (awaitRise small 1) := by apply coupled_of <;> decide
theorem coupled_awaitFall : Coupled (awaitFall small 0 1) := by apply coupled_of <;> decide
theorem coupled_resolved : Coupled (resolved small 1) := by apply coupled_of <;> decide
theorem coupled_published : Coupled (published small .lo) := by apply coupled_of <;> decide

/-- The couplings and the bounds, with the FALL that resolves the cycle as the step (invariants, R150, R162). -/
theorem witness_invariants :
    Coupled (choosing [.stimulus 0x03000000] (awaitFall small 0 1))
      ∧ RangeBounded (choosing [.stimulus 0x03000000] (awaitFall small 0 1))
      ∧ ∃ t, step (choosing [.stimulus 0x03000000] (awaitFall small 0 1)) = .next t ∧ t.measState = .resolved := by
  refine ⟨by apply coupled_of <;> decide, ⟨fun _ _ => by decide, nofun, nofun⟩, _, rfl, by decide⟩

theorem witness_onlyReset :
    (choosing [.stimulus 0x01000000] (pulse small 1)).schedule = .stimulus 0x01000000 :: []
      ∧ decodePort 0x01000000 ≠ .ok .reset ∧ ∃ t, step (choosing [.stimulus 0x01000000] (pulse small 1)) = .next t :=
  ⟨rfl, nofun, _, rfl⟩

theorem witness_persists :
    (∃ t, moveStep .sequencer (resolved small 1) = .next t) ∧ publishes .sequencer (resolved small 1) = false
      ∧ presents .reset .sequencer = false := ⟨⟨_, rfl⟩, rfl, rfl⟩

theorem witness_publishes :
    (Coupled (resolved small 1) ∧ (resolved small 1).cycleComplete = true)
      ∧ (∃ t, moveStep (.stimulus 0x03000000) (awaitFall small 0 1) = .next t)
      ∧ publishes (.stimulus 0x03000000) (awaitFall small 0 1) = true
      ∧ publishes (.stimulus 0x01000000) (awaitRise small 1) = true :=
  ⟨⟨coupled_resolved, rfl⟩, ⟨_, rfl⟩, by decide, by decide⟩

theorem witness_noInterrupt :
    Instr.tick.opClass = .stimulus ∧ Instr.tick ≠ .reset ∧ raisedInterrupt .tick (awaitRise small 0) = none
      ∧ exec .tick (awaitRise small 0) = .next (awaitRise small 1) := ⟨rfl, nofun, rfl, rfl⟩

theorem witness_outsideWait :
    Coupled (idle small) ∧ (idle small).seqPhase ≠ .wait ∧ (idle small).echoLvl = false
      ∧ Coupled { idle small with echoLvl := true } :=
  ⟨coupled_idle, nofun, rfl, by apply coupled_of <;> decide⟩

theorem witness_emittedPair :
    Coupled (choosing [.stimulus 0x05000000] (published small .lo)) ∧ (published small .lo).byteSel = .lo
      ∧ decodePort 0x05000000 = .ok (.byte 0)
      ∧ ∃ t, step (choosing [.stimulus 0x05000000] (published small .lo)) = .next t :=
  ⟨by apply coupled_of <;> decide, rfl, rfl, _, rfl⟩

theorem witness_simultaneous :
    let s := awaitFall small 0 1
    s.measState = .awaitFall ∧ s.tRun = true ∧ s.capEn = true ∧ s.cmpEn = true ∧ s.capPol = .falling
      ∧ s.echoLvl = true ∧ s.tcnt + 1 = s.tcmp := by decide

/-- A pulse: a TICK, which does not count, before its microsecond, and then the microsecond. -/
theorem witness_pulse :
    exec .trigBegin (idle small) = .next (pulse small 1)
      ∧ Without .reset [.stimulus 0x01000000, .stimulus 0x06000000]
      ∧ (∃ t, Runs [.stimulus 0x01000000] (pulse small 1) t) ∧ countOf .ustick [.stimulus 0x01000000] < small.trigPulseUs.toNat
      ∧ (∃ t, Runs [.stimulus 0x01000000, .stimulus 0x06000000] (pulse small 1) t)
      ∧ presents .ustick (.stimulus 0x06000000) = true
      ∧ countOf .ustick [.stimulus 0x01000000, .stimulus 0x06000000] = small.trigPulseUs.toNat :=
  ⟨rfl, by unfold Without; decide, ⟨_, _, rfl, rfl⟩, by decide, ⟨_, _, rfl, _, rfl, rfl⟩, by decide, by decide⟩

/-- The state TEARDOWN leaves from `resolved`. -/
def tornDown (p : Params) : State :=
  { resolved p 1 with
    tRun := false, capEn := false, cmpEn := false, edgePhase := 0, cycleComplete := false, measState := .idle
    seqDelay := p.quietUs, seqPhase := .quiet }

theorem witness_quiet :
    exec .teardown (resolved small 1) = .next (tornDown small)
      ∧ Without .reset [.stimulus 0x05000000, .stimulus 0x06000000]
      ∧ (∃ t, Runs [.stimulus 0x05000000] (tornDown small) t) ∧ countOf .ustick [.stimulus 0x05000000] < small.quietUs.toNat
      ∧ (∃ t, Runs [.stimulus 0x05000000, .stimulus 0x06000000] (tornDown small) t)
      ∧ presents .ustick (.stimulus 0x06000000) = true
      ∧ countOf .ustick [.stimulus 0x05000000, .stimulus 0x06000000] = small.quietUs.toNat
      ∧ ({ small with quietUs := 0 } : Params).quietUs = 0 :=
  ⟨rfl, by unfold Without; decide, ⟨_, _, rfl, rfl⟩, by decide, ⟨_, _, rfl, _, rfl, rfl⟩, by decide, by decide, rfl⟩

/-- A cycle that sees no edge at all: after one TICK it awaits, after two it has timed out. -/
theorem witness_timeout :
    exec (.arm (arming small false).params.timeoutTicks) (arming small false) = .next (awaitRise small 0)
      ∧ Without .reset [.stimulus 0x01000000, .stimulus 0x01000000]
      ∧ (∃ t, Runs [.stimulus 0x01000000, .stimulus 0x01000000] (awaitRise small 0) t)
      ∧ (∀ pre post u, [Move.stimulus 0x01000000, .stimulus 0x01000000] = pre ++ post → Runs pre (awaitRise small 0) u →
          u.measState ≠ .resolved)
      ∧ countOf .tick [.stimulus 0x01000000] < small.timeoutTicks.toNat
      ∧ presents .tick (.stimulus 0x01000000) = true
      ∧ countOf .tick [.stimulus 0x01000000, .stimulus 0x01000000] = small.timeoutTicks.toNat := by
  refine ⟨rfl, by unfold Without; decide, ⟨_, _, rfl, _, rfl, rfl⟩, ?_, by decide, by decide, by decide⟩
  rintro (_ | ⟨a, _ | ⟨b, _ | ⟨c, pre⟩⟩⟩) post u h hr
  · cases hr; decide
  · obtain ⟨rfl, -⟩ : Move.stimulus 0x01000000 = a ∧ _ := by simpa using h
    obtain ⟨v, hv, rfl⟩ := hr
    cases hv; decide
  · obtain ⟨rfl, rfl, -⟩ : Move.stimulus 0x01000000 = a ∧ Move.stimulus 0x01000000 = b ∧ _ := by simpa using h
    obtain ⟨v, hv, w, hw, rfl⟩ := hr
    cases hv; cases hw; decide
  · simp at h

theorem witness_completes :
    Coupled (awaitRise small 1) ∧ (awaitRise small 1).measState.awaiting = true
      ∧ Without .reset [.stimulus 0x02000000, .stimulus 0x01000000]
      ∧ (∃ t, Runs [.stimulus 0x02000000, .stimulus 0x01000000] (awaitRise small 1) t)
      ∧ (awaitRise small 1).tcmp.toNat - (awaitRise small 1).tcnt.toNat
          ≤ countOf .tick [.stimulus 0x02000000, .stimulus 0x01000000] :=
  ⟨coupled_awaitRise, by decide, by unfold Without; decide, ⟨_, _, rfl, _, rfl, rfl⟩, by decide⟩

/-- A FALL that publishes, and two BYTEs after it with a TEARDOWN between them. -/
theorem witness_served :
    ∃ u t, moveStep (.stimulus 0x03000000) (awaitFall small 0 1) = .next u
      ∧ publishes (.stimulus 0x03000000) (awaitFall small 0 1) = true
      ∧ RunsUnpublished [.stimulus 0x05000000, .sequencer, .stimulus 0x05000000] u t
      ∧ 2 ≤ [Move.stimulus 0x05000000, .sequencer, .stimulus 0x05000000].countP presentsByte :=
  ⟨_, _, rfl, by decide, ⟨rfl, rfl, _, rfl, rfl, rfl, _, rfl, rfl, rfl, _, rfl, rfl⟩, by decide⟩

/-- Two states that agree on the latches and differ in phase, in freshness and in the echo line. -/
theorem witness_busSees :
    let s := published small .hi
    let s' := { published small .hi with seqPhase := .quiet, seqDelay := 1, trig := false, echoLvl := true }
    s.pubHi = s'.pubHi ∧ s.pubLo = s'.pubLo ∧ s.byteSel = s'.byteSel
      ∧ (∃ t, RunsUnpublished [.stimulus 0x05000000] s t) ∧ ∃ t, RunsUnpublished [.stimulus 0x05000000] s' t :=
  ⟨rfl, rfl, rfl, ⟨_, rfl, rfl, _, rfl, rfl⟩, ⟨_, rfl, rfl, _, rfl, rfl⟩⟩

/-! An infinite run that meets every premise of the liveness statement: timeout and pulse of one count, no quiet
period, and seven moves repeated. -/

/-- The fastest configuration. -/
def fast : Params := { timeoutTicks := 1, trigPulseUs := 1, quietUs := 0, staleEdgeCapture := false }

/-- The cycle's moves: TRIG_BEGIN, USTICK, TRIG_END, ARM, TICK, TEARDOWN, QUIET_END. -/
def loopMove : Nat → Move
  | 1 => .stimulus 0x06000000
  | 4 => .stimulus 0x01000000
  | _ => .sequencer

/-- What each of them records. -/
def loopEvent : Nat → TraceEvent
  | 0 => .internal 0x10000000
  | 1 => .stimulus 0x06000000 (.accepted none)
  | 2 => .internal 0x11000000
  | 3 => .internal (encode (.arm 1))
  | 4 => .stimulus 0x01000000 (.accepted none)
  | 5 => .internal 0x13000000
  | _ => .internal 0x14000000

/-- The registers before each of them, from a cycle after the first: the counter and its compare value are left at
one. -/
def loopState : Nat → State
  | 0 => { idle fast with tcnt := 1, tcmp := 1 }
  | 1 => { pulse fast 1 with tcnt := 1, tcmp := 1 }
  | 2 => { pulse fast 0 with tcnt := 1, tcmp := 1 }
  | 3 => { arming fast false with tcnt := 1, tcmp := 1 }
  | 4 => awaitRise fast 0
  | 5 => timedOut fast 1
  | _ => { quiet fast 0 with tcnt := 1, tcmp := 1 }

/-- The trace after `n` moves, newest first. -/
def loopTrace : Nat → List TraceEvent
  | 0 => []
  | n + 1 => loopEvent (n % 7) :: loopTrace n

theorem loop_step (tr : List TraceEvent) :
    ∀ j, j < 7 → moveStep (loopMove j) { loopState j with trace := tr }
      = .next { loopState ((j + 1) % 7) with trace := loopEvent j :: tr }
  | 0, _ => rfl
  | 1, _ => by
    have hd : decodePort 0x06000000 = .ok .ustick := rfl
    simp only [loopMove, moveStep, step, takeStep, stimulusStep, stimulusOutcome, hd]
    simp [exec, execUstick, recorded, admissionReject, emitMiso, loopState, loopEvent, pulse, idle, State.afterReset,
      countDown]
  | 2, _ => rfl
  | 3, _ => rfl
  | 4, _ => by
    have hd : decodePort 0x01000000 = .ok .tick := rfl
    simp only [loopMove, moveStep, step, takeStep, stimulusStep, stimulusOutcome, hd]
    rfl
  | 5, _ => rfl
  | 6, _ => rfl
  | j + 7, h => absurd h (by omega)

theorem loop_no_reset (j : Nat) : presents .reset (loopMove j) = false := by
  unfold loopMove
  split <;> rfl

theorem witness_liveness :
    let μ := fun n => loopMove (n % 7)
    let σ := fun n => { loopState (n % 7) with trace := loopTrace n }
    IsRun μ σ ∧ Coupled (σ 0) ∧ WeaklyFair μ σ ∧ TickDuty μ σ ∧ UstickDuty μ σ
      ∧ ∀ n, presents .reset (μ n) = false := by
  refine ⟨fun n => ?_, by apply coupled_of <;> decide, fun n _ => ⟨7 * n, by omega, ?_⟩,
    fun n _ => ⟨7 * n + 4, by omega, ?_⟩, fun n _ => ⟨7 * n + 1, by omega, ?_⟩, fun n => ?_⟩
  · have := loop_step (loopTrace n) (n % 7) (Nat.mod_lt n (by decide))
    simpa only [loopTrace, Nat.mod_add_mod] using this
  · show loopMove (7 * n % 7) = _
    rw [show 7 * n % 7 = 0 by omega]; rfl
  · show presents _ (loopMove ((7 * n + 4) % 7)) = _
    rw [show (7 * n + 4) % 7 = 4 by omega]; decide
  · show presents _ (loopMove ((7 * n + 1) % 7)) = _
    rw [show (7 * n + 1) % 7 = 1 by omega]; decide
  · exact loop_no_reset (n % 7)

end Sys2Proof.Tests
end

section
/-! Every step answers a next state (R13, R210, R300): one lemma for what the sequencer performs, one for each kind
of turn. -/

namespace Sys2Proof.Machine

variable {s : State}

/-- The operation the table of R203 enables is never refused where it is enabled. -/
theorem exec_enabledOp_next {i : Instr} (h : enabledOp s = some i) : ∃ t, exec i s = .next t := by
  rcases enabledOp_some h with ⟨rfl, hp⟩ | ⟨rfl, hp, hd⟩ | ⟨rfl, hp⟩ | ⟨rfl, hp, hc⟩ | ⟨rfl, hp, hd⟩
  · exact ⟨_, whenEnabled_next.2 ⟨by simp [trigBeginEnabled, hp], rfl⟩⟩
  · exact ⟨_, whenEnabled_next.2 ⟨by simp [trigEndEnabled, hp, hd], rfl⟩⟩
  · exact ⟨_, whenEnabled_next.2 ⟨by simp [armEnabled, hp], rfl⟩⟩
  · exact ⟨_, whenEnabled_next.2 ⟨by simp [teardownEnabled, hp, hc], rfl⟩⟩
  · exact ⟨_, whenEnabled_next.2 ⟨by simp [quietEndEnabled, hp, hd], rfl⟩⟩

/-- Recording a step keeps it a step. -/
theorem recorded_next_of_next {ev : TraceEvent} {r : Host.Outcome State Fault Refusal} (h : ∃ t, r = .next t) :
    ∃ t, recorded ev r = .next t := by
  obtain ⟨u, hu⟩ := h
  exact ⟨_, recorded_next.2 ⟨u, hu, rfl⟩⟩

/-- A stimulus step completes for every word: rejected by the decoder, or the meaning of a stimulus. -/
theorem stimulusStep_next (w : Word) (s : State) : ∃ t, stimulusStep w s = .next t := by
  refine recorded_next_of_next ?_
  cases hd : decodePort w with
  | error c => exact ⟨reject c s, rfl⟩
  | ok i => exact exec_stimulus_next (decodePort_stimulus hd) s

/-- The sequencer's turn completes: the enabled operation, or nothing where none is enabled (R213). -/
theorem sequencerStep_next (s : State) : ∃ t, sequencerStep s = .next t := by
  unfold sequencerStep
  cases he : enabledOp s with
  | none => exact ⟨s, rfl⟩
  | some i => exact recorded_next_of_next (exec_enabledOp_next he)

/-- Settles O10, by the three choices of the scheduling law: a stimulus word, the sequencer's turn, or no choice
left. -/
theorem everyStepHasANextState : Obligations.EveryStepHasANextState := by
  intro s
  unfold step takeStep
  split
  · exact stimulusStep_next _ _
  · exact sequencerStep_next _
  · exact sequencerStep_next s

end Sys2Proof.Machine
end

section
/-! What R9 admits, and the configuration an admitted request stands for. -/

namespace Sys2Proof.Machine

/-- R9 as an arithmetic condition on the three requested counts. -/
theorem admitted_iff (r : ParamRequest) :
    r.admitted = true ↔ (1 ≤ r.timeoutTicks ∧ r.timeoutTicks ≤ 65535)
      ∧ (1 ≤ r.trigPulseUs ∧ r.trigPulseUs ≤ 65535) ∧ r.quietUs ≤ 65535 := by
  simp [ParamRequest.admitted, and_assoc]

/-- A count within 16 bits survives being stored as `Ticks`. -/
theorem toNat_ticks_of_le {n : Nat} (h : n ≤ 65535) : (BitVec.ofNat 16 n).toNat = n := by
  rw [BitVec.toNat_ofNat]
  exact Nat.mod_eq_of_lt (by omega)

/-- A configuration's counts are in range exactly where neither the timeout nor the pulse is zero. -/
theorem params_wf_iff (p : Params) : p.wf = true ↔ 1 ≤ p.timeoutTicks.toNat ∧ 1 ≤ p.trigPulseUs.toNat := by
  simp [Params.wf, ← BitVec.toNat_inj, Nat.one_le_iff_ne_zero]

/-- Settles O31: `launch` branches on `admitted`, which is R9, and within R9 no count is truncated. -/
theorem launchAdmitsExactlyTheRanges : Obligations.LaunchAdmitsExactlyTheRanges := by
  intro r echo0
  rw [← admitted_iff r]
  constructor
  · intro ha
    obtain ⟨⟨ht, ht'⟩, ⟨hp, hp'⟩, hq⟩ := (admitted_iff r).1 ha
    have htimeout : r.params.timeoutTicks.toNat = r.timeoutTicks := toNat_ticks_of_le ht'
    have hpulse : r.params.trigPulseUs.toNat = r.trigPulseUs := toNat_ticks_of_le hp'
    have hwf : r.params.wf = true := (params_wf_iff _).2 ⟨by omega, by omega⟩
    exact ⟨by simp [launch, ha], hwf, htimeout, hpulse, toNat_ticks_of_le hq⟩
  · intro ha
    simp [launch, ha]

end Sys2Proof.Machine
end

section
/-! The couplings of R52 to R57: the launch state meets them, and every meaning keeps them. One lemma per update of
the state, each naming the couplings that update can touch. -/

namespace Sys2Proof.Safety

open Sys2Proof.Machine

variable {s t : State}

/-- No coupling reads the schedule or the trace. -/
theorem Coupled.recorded (h : Coupled s) (r : List Move) (tr : List TraceEvent) :
    Coupled { s with schedule := r, trace := tr } := { h with }

/-- A measurement in progress or ended is in phase WAIT (R52). -/
theorem Coupled.wait_of_ne_idle (h : Coupled s) (hm : s.measState ≠ .idle) : s.seqPhase = .wait := by
  obtain ⟨hwait, -⟩ := h.phase
  exact hwait.2 hm

/-- Outside phase WAIT nothing is measured (R52). -/
theorem Coupled.idle_of_ne_wait (h : Coupled s) (hp : s.seqPhase ≠ .wait) : s.measState = .idle := by
  by_contra hm
  exact hp (h.wait_of_ne_idle hm)

/-- Before the first edge no edge is counted (R53): 1, 2 and 3 are excluded. -/
theorem Coupled.edgePhase_of_awaitRise (h : Coupled s) (hm : s.measState = .awaitRise) : s.edgePhase = 0 := by
  obtain ⟨hone, htwo, hthree, -⟩ := h.edge
  have two_bits : ∀ e : BitVec 2, e ≠ 1 → e ≠ 2 → e ≠ 3 → e = 0 := by decide
  exact two_bits _ (mt hone.1 (by simp [hm])) (mt htwo.1 (by simp [hm])) hthree

/-- The state RESET leaves meets the couplings in every admitted configuration. -/
theorem coupled_afterReset {p : Params} (hp : p.wf = true) (echo0 : Bool) : Coupled (State.afterReset p echo0) where
  config := hp
  phase := by simp [PhaseCoupled, State.afterReset]
  edge := by simp [EdgePhaseCoupled, State.afterReset]
  polarity := by simp [PolarityCoupled, State.afterReset]
  counter := nofun
  pairs := by simp only [PairCoupled, State.afterReset]; decide
  delay := by simp [DelayCoupled, State.afterReset]
  position := nofun

/-- RESET leaves the launch state at the level of the echo line (R400, R402). -/
theorem exec_reset (s : State) :
    exec .reset s
      = .next { State.afterReset s.params s.echoLvl with schedule := s.schedule, trace := s.trace } := rfl

/-- Code 0 is "no fault": no reject has it (R311). -/
theorem rejectCode_ne_zero (c : RejectCode) : c.code ≠ 0#3 := by
  cases c <;> decide

/-- A rejection touches the fault registers alone; its code is never 0 (R311). -/
theorem Coupled.reject (h : Coupled s) (c : RejectCode) : Coupled (reject c s) := by
  obtain ⟨hzero, harmed, hfault⟩ := h.delay
  refine { h with delay := ⟨hzero, harmed, ?_⟩ }
  cases hf : s.fault <;> simp_all [rejectCode_ne_zero]

/-- The counter is bound only while a measurement awaits an edge (R55). -/
theorem Coupled.setCount (h : Coupled s) {c : Ticks} (hc : s.measState.awaiting = true → c < s.tcmp) :
    Coupled { s with tcnt := c } :=
  { h with counter := fun ha => ⟨hc ha, (h.counter ha).2⟩ }

/-- An echo edge moves the level and leaves no line armed high. -/
theorem Coupled.moveLine (h : Coupled s) (level : Bool) : Coupled { s with echoLvl := level, armedHigh := false } := by
  obtain ⟨hzero, -, hfault⟩ := h.delay
  exact { h with delay := ⟨hzero, nofun, hfault⟩ }

/-- A timeout of an awaiting measurement: TimedOut, edge phase 0, both latches zero (R155). -/
theorem Coupled.resolveTimeout (h : Coupled s) (ha : s.measState.awaiting = true) : Coupled (resolveTimeout s) := by
  have hm : s.measState ≠ .idle := by rintro hi; simp [hi, MeasState.awaiting] at ha
  obtain ⟨-, hrest⟩ := h.phase
  exact
    { h with
      phase := ⟨by simp [h.wait_of_ne_idle hm], hrest⟩
      edge := by simp [EdgePhaseCoupled]
      polarity := by simp [PolarityCoupled]
      counter := nofun
      pairs := pair_bytes 0
      position := nofun }

/-- The timeout handler at any count of the counter: it ends an awaiting measurement, and elsewhere the counter is
not bound. -/
theorem Coupled.timeoutHandler_setCount (h : Coupled s) (c : Ticks) :
    Coupled (timeoutHandler { s with tcnt := c }) := by
  rcases timeoutHandler_cases { s with tcnt := c } with ⟨ha, e⟩ | ⟨ha, e⟩ <;> rw [e]
  · exact (h.resolveTimeout ha).setCount nofun
  · exact h.setCount fun ha' => by simp_all

/-- The rise counted: AwaitFall, one edge, falling polarity (R152). -/
theorem Coupled.recordRise (h : Coupled s) (hm : s.measState = .awaitRise) (v : Ticks) : Coupled (recordRise v s) := by
  have hedge := h.edgePhase_of_awaitRise hm
  have hwait := h.wait_of_ne_idle (by simp [hm])
  obtain ⟨-, hrest⟩ := h.phase
  obtain ⟨-, -, -, hcomplete⟩ := h.edge
  exact
    { h with
      phase := ⟨by simp [hwait], hrest⟩
      edge := by simp_all [EdgePhaseCoupled, nextEdgePhase]
      polarity := by simp [PolarityCoupled]
      counter := fun _ => h.counter (by simp [hm, MeasState.awaiting]) }

/-- The fall counted: Resolved, two edges, rising polarity, the pair published (R153, R160). -/
theorem Coupled.resolveFall (h : Coupled s) (hm : s.measState = .awaitFall) (v : Ticks) : Coupled (resolveFall v s) := by
  have hwait := h.wait_of_ne_idle (by simp [hm])
  obtain ⟨-, hrest⟩ := h.phase
  obtain ⟨hone, -⟩ := h.edge
  exact
    { h with
      phase := ⟨by simp [hwait], hrest⟩
      edge := by simp [EdgePhaseCoupled, nextEdgePhase, hone.2 hm]
      polarity := by simp [PolarityCoupled]
      counter := nofun
      pairs := pair_bytes _
      position := nofun }

/-- A capture keeps the couplings, whatever it latches. -/
theorem Coupled.capture (h : Coupled s) (v : Ticks) : Coupled (capture v s) := by
  have hicr : Coupled { s with icr := v } := { h with }
  rcases capture_cases v s with ⟨hm, e⟩ | ⟨hm, e⟩ | ⟨-, e⟩ <;> rw [e]
  · exact hicr.recordRise hm v
  · exact hicr.resolveFall hm v
  · exact hicr

/-- A byte served leaves the position at LO only after the high byte (R183). -/
theorem Coupled.byteRequestHandler (h : Coupled s) : Coupled (byteRequestHandler s) := by
  refine { h with position := ?_ }
  cases hb : s.byteSel <;> simp [PositionCoupled, ByteSel.toggle, servedByte, hb]

/-- A delay of zero stays zero (R103). -/
theorem Coupled.countDown (h : Coupled s) : Coupled { s with seqDelay := countDown s.seqDelay } := by
  obtain ⟨hzero, hrest⟩ := h.delay
  exact { h with delay := ⟨fun hp => by simp [Machine.countDown, hzero hp], hrest⟩ }

theorem nextCount_lt {c m : Ticks} (h : c < m) (hne : nextCount c ≠ m) : nextCount c < m := by
  unfold nextCount add16 at *
  bv_omega

/-- A TICK keeps the couplings: it counts up to the compare value, and reaching it ends the measurement. -/
theorem Coupled.tick (h : Coupled s) (ht : exec .tick s = .next t) : Coupled t := by
  rcases exec_tick s with ⟨-, e⟩ | ⟨hrun, hmatch, e⟩ | ⟨-, -, e⟩ <;> rw [e] at ht <;> cases ht
  · exact h
  · obtain ⟨-, hrunning, -, hcompare, -⟩ := h.phase
    have hne : nextCount s.tcnt ≠ s.tcmp := by simpa [matchesNext, hcompare.2 (hrunning.1 hrun)] using hmatch
    exact h.setCount fun ha => nextCount_lt (h.counter ha).1 hne
  · exact h.timeoutHandler_setCount _

/-- Every stimulus keeps the couplings. -/
theorem Coupled.stimulus (h : Coupled s) {i : Instr} (hi : i.opClass = .stimulus) (ht : exec i s = .next t) :
    Coupled t := by
  cases i with
  | tick => exact h.tick ht
  | rise =>
    rcases exec_rise s with ⟨-, e⟩ | ⟨-, -, e⟩ | ⟨-, -, e⟩ <;> rw [e] at ht <;> cases ht
    · exact h.reject _
    · exact h.moveLine _
    · exact (h.moveLine _).capture _
  | fall =>
    rcases exec_fall s with ⟨-, e⟩ | ⟨-, -, e⟩ | ⟨-, -, e⟩ <;> rw [e] at ht <;> cases ht
    · exact h.reject _
    · exact h.moveLine _
    · exact (h.moveLine _).capture _
  | staleRise v =>
    rcases exec_staleRise v s with ⟨-, e⟩ | ⟨-, e⟩ <;> rw [e] at ht <;> cases ht
    · exact h.reject _
    · exact (h.moveLine s.echoLvl).capture v
  | byte m => cases ht; exact h.byteRequestHandler
  | ustick => cases ht; exact h.countDown
  | reset => cases ht; exact (coupled_afterReset h.config s.echoLvl).recorded s.schedule s.trace
  | trigBegin => cases hi
  | trigEnd => cases hi
  | arm n => cases hi
  | teardown => cases hi
  | quietEnd => cases hi

/-- TRIG_BEGIN raises the trigger and enters PULSE, where the delay is free (R101). -/
theorem Coupled.trigBegin (h : Coupled s) (hp : s.seqPhase = .idle) :
    Coupled { s with trig := true, seqDelay := s.params.trigPulseUs, seqPhase := .pulse } := by
  obtain ⟨-, harmed, hfault⟩ := h.delay
  obtain ⟨hwait, hrun, hcap, hcmp, -⟩ := h.phase
  exact
    { h with
      phase := by simp_all [PhaseCoupled]
      delay := by simp_all [DelayCoupled] }

/-- TRIG_END lowers the trigger and enters ARMING with the delay run out (R102). -/
theorem Coupled.trigEnd (h : Coupled s) (hp : s.seqPhase = .pulse) (hd : s.seqDelay = 0) :
    Coupled { s with trig := false, seqPhase := .arming } := by
  obtain ⟨-, harmed, hfault⟩ := h.delay
  obtain ⟨hwait, hrun, hcap, hcmp, -⟩ := h.phase
  exact
    { h with
      phase := by simp_all [PhaseCoupled]
      delay := by simp_all [DelayCoupled] }

/-- ARM with the configuration's compare value, which R9 keeps above zero, starts the measurement (R121). -/
theorem Coupled.arm (h : Coupled s) (ht : exec (.arm s.params.timeoutTicks) s = .next t) : Coupled t := by
  obtain ⟨harming, rfl⟩ := whenEnabled_next.1 ht
  have hp : s.seqPhase = .arming := by simpa [armEnabled] using harming
  obtain ⟨hzero, -, hfault⟩ := h.delay
  obtain ⟨-, -, -, -, htrig⟩ := h.phase
  obtain ⟨htimeout, -⟩ := (params_wf_iff s.params).1 h.config
  exact
    { h with
      phase := by simp_all [PhaseCoupled]
      edge := by simp [EdgePhaseCoupled]
      polarity := by simp [PolarityCoupled]
      counter := fun _ => ⟨BitVec.lt_def.2 htimeout, rfl⟩
      delay := ⟨fun _ => hzero (by simp [hp]), fun hlevel => ⟨rfl, hlevel⟩, hfault⟩ }

/-- TEARDOWN disarms, forgets the measurement and enters QUIET, where the delay is free (R201). -/
theorem Coupled.teardown (h : Coupled s) (ht : exec .teardown s = .next t) : Coupled t := by
  obtain ⟨hen, rfl⟩ := whenEnabled_next.1 ht
  have hp : s.seqPhase = .wait := (by simpa [teardownEnabled] using hen : _ ∧ _).1
  obtain ⟨-, -, hfault⟩ := h.delay
  obtain ⟨-, -, -, -, htrig⟩ := h.phase
  exact
    { h with
      phase := by simp_all [PhaseCoupled]
      edge := by simp [EdgePhaseCoupled]
      polarity := by simp [PolarityCoupled]
      counter := nofun
      delay := by simp_all [DelayCoupled] }

/-- QUIET_END returns to IDLE with the delay run out (R202). -/
theorem Coupled.quietEnd (h : Coupled s) (hp : s.seqPhase = .quiet) (hd : s.seqDelay = 0) :
    Coupled { s with seqPhase := .idle } := by
  obtain ⟨-, harmed, hfault⟩ := h.delay
  obtain ⟨hwait, hrun, hcap, hcmp, htrig⟩ := h.phase
  exact
    { h with
      phase := by simp_all [PhaseCoupled]
      delay := by simp_all [DelayCoupled] }

/-- The operation the sequencer takes keeps the couplings. -/
theorem Coupled.internal (h : Coupled s) {i : Instr} (hi : enabledOp s = some i) (ht : exec i s = .next t) :
    Coupled t := by
  rcases enabledOp_some hi with ⟨rfl, hp⟩ | ⟨rfl, hp, hd⟩ | ⟨rfl, -⟩ | ⟨rfl, -, -⟩ | ⟨rfl, hp, hd⟩
  · obtain ⟨-, rfl⟩ := whenEnabled_next.1 ht; exact h.trigBegin hp
  · obtain ⟨-, rfl⟩ := whenEnabled_next.1 ht; exact h.trigEnd hp hd
  · exact h.arm ht
  · exact h.teardown ht
  · obtain ⟨-, rfl⟩ := whenEnabled_next.1 ht; exact h.quietEnd hp hd

/-- The choice taken off the schedule enables nothing else. -/
theorem enabledOp_nextMove (s : State) : enabledOp (nextMove s).2 = enabledOp s := by
  unfold nextMove
  split <;> rfl

/-- The choice taken off the schedule changes no coupling. -/
theorem Coupled.nextMove (h : Coupled s) : Coupled (nextMove s).2 := by
  unfold Machine.nextMove
  split
  · exact h.recorded _ s.trace
  · exact h

/-- Settles O39, by the four things a step can be: a rejected word, a stimulus, an internal operation, an idle turn. -/
theorem stepKeepsTheCouplings : Obligations.StepKeepsTheCouplings := by
  intro s t h ht
  rcases step_cases ht with ⟨w, rest, c, -, -, rfl⟩ | ⟨w, rest, i, u, -, hd, hu, rfl⟩ | ⟨i, u, -, hi, hu, rfl⟩
    | ⟨-, -, rfl⟩
  · exact (h.reject c).recorded rest _
  · exact ((h.recorded rest s.trace).stimulus (decodePort_stimulus hd) hu).recorded u.schedule _
  · have hi' : enabledOp (nextMove s).2 = some i := (enabledOp_nextMove s).trans hi
    exact (h.nextMove.internal hi' hu).recorded u.schedule _
  · exact h.nextMove

end Sys2Proof.Safety
end

section
/-! The bounds of R55 and R158. They read the trace in one bit, whether a stale capture happened since ARM, so they
are stated for the registers and that bit apart. An update of registers no bound reads keeps them as `{ h with }`. -/

namespace Sys2Proof.Safety

open Sys2Proof.Machine

variable {s t : State} {stale : Bool}

/-- The bounds of R55 and R158 on the registers of `s`, in a cycle with (`stale`) or without a stale capture. -/
structure RangesAt (stale : Bool) (s : State) : Prop where
  rise : s.measState = .awaitFall → stale = false → s.riseTicks ≤ s.tcnt
  resolved : s.measState = .resolved → stale = false → s.distance < s.params.timeoutTicks
  timedOut : s.measState = .timedOut → s.distance = 0

theorem rangeBounded_iff : RangeBounded s ↔ RangesAt (staleSinceArm s.trace) s :=
  ⟨fun ⟨hrise, hresolved, htimedOut⟩ => ⟨hrise, hresolved, htimedOut⟩,
    fun ⟨hrise, hresolved, htimedOut⟩ => ⟨hrise, hresolved, htimedOut⟩⟩

/-- Before the first edge of a cycle the bounds say nothing. -/
theorem RangesAt.of_no_edge (hm : s.measState = .idle ∨ s.measState = .awaitRise) : RangesAt stale s := by
  rcases hm with hm | hm <;> constructor <;> simp [hm]

/-- After a stale capture only the timed-out Distance is bound. -/
theorem RangesAt.afterStale (h : RangesAt stale s) : RangesAt true s :=
  ⟨nofun, nofun, h.timedOut⟩

/-- The counter may move up while a measurement awaits an edge, and anywhere elsewhere. -/
theorem RangesAt.setCount (h : RangesAt stale s) {c : Ticks} (hc : s.measState.awaiting = true → s.tcnt ≤ c) :
    RangesAt stale { s with tcnt := c } :=
  { h with
    rise := fun hm hs =>
      have hm' : s.measState = .awaitFall := hm
      BitVec.le_trans (h.rise hm hs) (hc (by simp [hm', MeasState.awaiting])) }

/-- The timeout handler publishes 0 or leaves the measurement as it is, at any count of the counter. -/
theorem RangesAt.timeoutHandler_setCount (h : RangesAt stale s) (c : Ticks) :
    RangesAt stale (timeoutHandler { s with tcnt := c }) := by
  rcases timeoutHandler_cases { s with tcnt := c } with ⟨-, e⟩ | ⟨ha, e⟩ <;> rw [e]
  · exact ⟨nofun, nofun, fun _ => rfl⟩
  · exact h.setCount fun ha' => by simp_all

/-- The distance of two captures in order stays below a bound of the later one (R157). -/
theorem tickDistance_lt {r f m : Ticks} (h : r ≤ f) (hf : f < m) : tickDistance r f < m := by
  unfold tickDistance sub16
  bv_omega

/-- A capture keeps the bounds: one that is not stale latches the counter, which is below the compare value while an
edge is awaited. -/
theorem RangesAt.capture (hc : Coupled s) (h : RangesAt stale s) {v : Ticks} (hv : stale = false → v = s.tcnt) :
    RangesAt stale (capture v s) := by
  rcases capture_cases v s with ⟨-, e⟩ | ⟨hm, e⟩ | ⟨-, e⟩ <;> rw [e]
  · exact ⟨fun _ hs => hv hs ▸ BitVec.le_refl v, nofun, nofun⟩
  · refine ⟨nofun, fun _ hs => ?_, nofun⟩
    obtain ⟨hcount, hcompare⟩ := hc.counter (by simp [hm, MeasState.awaiting])
    have hbelow : v < s.params.timeoutTicks := by rw [hv hs, ← hcompare]; exact hcount
    exact tickDistance_lt (hv hs ▸ h.rise hm hs) hbelow
  · exact { h with }

theorem le_nextCount {c m : Ticks} (h : c < m) : c ≤ nextCount c := by
  unfold nextCount add16
  bv_omega

/-- An admitted stimulus keeps the bounds, read with what it says of a stale capture. -/
theorem RangesAt.accepted (hc : Coupled s) (h : RangesAt stale s) {i : Instr} (hi : i.opClass = .stimulus)
    (hadm : admissionReject i s = none) (ht : exec i s = .next t) : RangesAt ((staleEffect i).getD stale) t := by
  cases i with
  | tick =>
    rcases exec_tick s with ⟨-, e⟩ | ⟨-, -, e⟩ | ⟨-, -, e⟩ <;> rw [e] at ht <;> cases ht
    · exact h
    · exact h.setCount fun ha => le_nextCount (hc.counter ha).1
    · exact h.timeoutHandler_setCount _
  | rise =>
    rcases exec_rise s with ⟨hl, -⟩ | ⟨-, -, e⟩ | ⟨-, -, e⟩
    · simp [admissionReject, riseReject, hl] at hadm
    · rw [e] at ht; cases ht; exact { h with }
    · rw [e] at ht; cases ht; exact RangesAt.capture (hc.moveLine _) { h with } fun _ => rfl
  | fall =>
    rcases exec_fall s with ⟨hl, -⟩ | ⟨-, -, e⟩ | ⟨-, -, e⟩
    · simp [admissionReject, fallReject, hl] at hadm
    · rw [e] at ht; cases ht; exact { h with }
    · rw [e] at ht; cases ht; exact RangesAt.capture (hc.moveLine _) { h with } fun _ => rfl
  | staleRise v =>
    rcases exec_staleRise v s with ⟨hs, -⟩ | ⟨-, e⟩
    · simp [admissionReject, staleReject, hs] at hadm
    · rw [e] at ht; cases ht; exact RangesAt.capture (hc.moveLine s.echoLvl) { h.afterStale with } nofun
  | byte m => cases ht; exact { h with }
  | ustick => cases ht; exact { h with }
  | reset => cases ht; exact .of_no_edge (.inl rfl)
  | trigBegin => cases hi
  | trigEnd => cases hi
  | arm n => cases hi
  | teardown => cases hi
  | quietEnd => cases hi

/-- No first edge is counted yet after an operation of the sequencer: ARM awaits it, and the others end in Idle. -/
theorem measState_of_internal (hc : Coupled s) {i : Instr} (hi : enabledOp s = some i) (ht : exec i s = .next t) :
    t.measState = .idle ∨ t.measState = .awaitRise := by
  rcases enabledOp_some hi with ⟨rfl, hp⟩ | ⟨rfl, hp, -⟩ | ⟨rfl, -⟩ | ⟨rfl, -, -⟩ | ⟨rfl, hp, -⟩ <;>
    obtain ⟨-, rfl⟩ := whenEnabled_next.1 ht
  · exact .inl (hc.idle_of_ne_wait (by simp [hp]))
  · exact .inl (hc.idle_of_ne_wait (by simp [hp]))
  · exact .inr rfl
  · exact .inl rfl
  · exact .inl (hc.idle_of_ne_wait (by simp [hp]))

/-- What the trace entry of a stimulus says of a stale capture: what the stimulus says, if it was admitted. -/
theorem staleMark_stimulus {w : Word} {i : Instr} (hd : decodePort w = .ok i) (s : State) :
    staleMark (.stimulus w (stimulusOutcome w s)) = if (admissionReject i s).isNone then staleEffect i else none := by
  cases ha : admissionReject i s <;> simp [staleMark, stimulusOutcome, hd, ha]

/-- A stimulus step keeps the bounds of its registers and its trace. -/
theorem RangesAt.stimulus (hc : Coupled s) (h : RangesAt stale s) {w : Word} {i : Instr} (hd : decodePort w = .ok i)
    (ht : exec i s = .next t) :
    RangesAt ((staleMark (.stimulus w (stimulusOutcome w s))).getD stale) t := by
  rw [staleMark_stimulus hd]
  cases ha : admissionReject i s with
  | none => exact h.accepted hc (decodePort_stimulus hd) ha ht
  | some c => rw [exec_of_admissionReject ha] at ht; cases ht; exact { h with }

/-- Settles O40, by the four things a step can be: a rejected word, a stimulus, an internal operation, an idle turn. -/
theorem stepKeepsTheRanges : Obligations.StepKeepsTheRanges := by
  intro s t hc h ht
  rw [rangeBounded_iff] at h ⊢
  rcases step_cases ht with ⟨w, rest, c, -, -, rfl⟩ | ⟨w, rest, i, u, -, hd, hu, rfl⟩ | ⟨i, u, -, hi, hu, rfl⟩
    | ⟨-, -, rfl⟩
  · exact { h with }
  · have htrace : u.trace = s.trace := (exec_frame hu).2
    have hkept := RangesAt.stimulus (hc.recorded rest s.trace) { h with } hd hu
    rw [← htrace] at hkept
    exact { hkept with }
  · have hi' : enabledOp (nextMove s).2 = some i := (enabledOp_nextMove s).trans hi
    have hm : u.measState = .idle ∨ u.measState = .awaitRise := measState_of_internal hc.nextMove hi' hu
    exact .of_no_edge hm
  · unfold nextMove; split <;> exact { h with }

/-- Settles O38: a launch state is the state RESET leaves, whatever is scheduled, and it has measured nothing. -/
theorem launchStatesAreCoupled : Obligations.LaunchStatesAreCoupled := by
  have hlaunch : ∀ (p : Params) (echo0 : Bool) (s : State), CleanLaunch p echo0 s → Coupled s ∧ RangeBounded s := by
    rintro p echo0 s ⟨hp, hs⟩
    rw [hs]
    exact ⟨(coupled_afterReset hp echo0).recorded _ [], rangeBounded_iff.2 (.of_no_edge (.inl rfl))⟩
  exact ⟨hlaunch, hlaunch Params.defaults false State.reset ⟨by decide, rfl⟩⟩

end Sys2Proof.Safety
end

section
/-! What the bus sees (R182, R189): the published pair changes only by Publish and RESET, and each BYTE emits the
byte of its position and toggles it. -/

namespace Sys2Proof.Safety

open Sys2Proof.Machine

variable {s t : State} {sel : ByteSel} {m : Move}

/-- `t` holds the published Distance and the two latches of `s`, at position `sel` of the pair. -/
structure KeepsPair (sel : ByteSel) (s t : State) : Prop where
  distance : t.distance = s.distance
  pubHi : t.pubHi = s.pubHi
  pubLo : t.pubLo = s.pubLo
  byteSel : t.byteSel = sel

/-- A capture publishes only in AwaitFall (R153). -/
theorem capture_keeps_pair (v : Ticks) (hm : s.measState ≠ .awaitFall) : KeepsPair s.byteSel s (capture v s) := by
  rcases capture_cases v s with ⟨-, e⟩ | ⟨hm', -⟩ | ⟨-, e⟩
  · rw [e]; exact ⟨rfl, rfl, rfl, rfl⟩
  · exact absurd hm' hm
  · rw [e]; exact ⟨rfl, rfl, rfl, rfl⟩

/-- An operation other than RESET whose interrupt does not publish keeps the pair; its position moves exactly where
the operation emits a byte. -/
theorem exec_keeps_pair {i : Instr} (hi : i ≠ .reset)
    (htimeout : raisedInterrupt i s = some .timeout → s.measState.awaiting = false)
    (hcapture : raisedInterrupt i s = some .capture → s.measState ≠ .awaitFall) (ht : exec i s = .next t) :
    KeepsPair (if (emitMiso i s).isSome then s.byteSel.toggle else s.byteSel) s t := by
  cases i with
  | tick =>
    rcases exec_tick s with ⟨-, e⟩ | ⟨-, -, e⟩ | ⟨hrun, hmatch, e⟩ <;> rw [e] at ht <;> cases ht
    · exact ⟨rfl, rfl, rfl, rfl⟩
    · exact ⟨rfl, rfl, rfl, rfl⟩
    · have ha := htimeout (by simpa [raisedInterrupt, hrun, matchesNext] using hmatch)
      rcases timeoutHandler_cases { s with tcnt := nextCount s.tcnt } with ⟨ha', -⟩ | ⟨-, e⟩
      · simp [ha] at ha'
      · rw [e]; exact ⟨rfl, rfl, rfl, rfl⟩
  | rise =>
    rcases exec_rise s with ⟨-, e⟩ | ⟨-, -, e⟩ | ⟨hl, hc, e⟩ <;> rw [e] at ht <;> cases ht
    · exact ⟨rfl, rfl, rfl, rfl⟩
    · exact ⟨rfl, rfl, rfl, rfl⟩
    · have hm := hcapture (by simp [raisedInterrupt, hl, hc])
      exact { capture_keeps_pair (s := { s with echoLvl := true, armedHigh := false }) s.tcnt hm with }
  | fall =>
    rcases exec_fall s with ⟨-, e⟩ | ⟨-, -, e⟩ | ⟨hl, hc, e⟩ <;> rw [e] at ht <;> cases ht
    · exact ⟨rfl, rfl, rfl, rfl⟩
    · exact ⟨rfl, rfl, rfl, rfl⟩
    · have hm := hcapture (by simp [raisedInterrupt, hl, hc])
      exact { capture_keeps_pair (s := { s with echoLvl := false, armedHigh := false }) s.tcnt hm with }
  | staleRise v =>
    rcases exec_staleRise v s with ⟨-, e⟩ | ⟨hs, e⟩ <;> rw [e] at ht <;> cases ht
    · exact ⟨rfl, rfl, rfl, rfl⟩
    · have hm := hcapture (by simp [raisedInterrupt, hs])
      exact { capture_keeps_pair (s := { s with armedHigh := false }) v hm with }
  | byte m => cases ht; exact ⟨rfl, rfl, rfl, rfl⟩
  | ustick => cases ht; exact ⟨rfl, rfl, rfl, rfl⟩
  | reset => exact absurd rfl hi
  | trigBegin => obtain ⟨-, rfl⟩ := whenEnabled_next.1 ht; exact ⟨rfl, rfl, rfl, rfl⟩
  | trigEnd => obtain ⟨-, rfl⟩ := whenEnabled_next.1 ht; exact ⟨rfl, rfl, rfl, rfl⟩
  | arm n => obtain ⟨-, rfl⟩ := whenEnabled_next.1 ht; exact ⟨rfl, rfl, rfl, rfl⟩
  | teardown => obtain ⟨-, rfl⟩ := whenEnabled_next.1 ht; exact ⟨rfl, rfl, rfl, rfl⟩
  | quietEnd => obtain ⟨-, rfl⟩ := whenEnabled_next.1 ht; exact ⟨rfl, rfl, rfl, rfl⟩

/-- A stimulus that does not publish raises no timeout while a measurement awaits an edge, and no capture in
AwaitFall. -/
theorem publishes_stimulus {w : Word} {i : Instr} (hd : decodePort w = .ok i) (hp : publishes (.stimulus w) s = false) :
    (raisedInterrupt i s = some .timeout → s.measState.awaiting = false)
      ∧ (raisedInterrupt i s = some .capture → s.measState ≠ .awaitFall) := by
  simp only [publishes, hd] at hp
  constructor <;> intro hr <;> simpa [hr] using hp

/-- A move presents a BYTE exactly where the stimulus it presents emits a byte. -/
theorem presentsByte_stimulus {w : Word} {i : Instr} (hd : decodePort w = .ok i) (s : State) :
    presentsByte (.stimulus w) = (emitMiso i s).isSome := by
  cases i <;> simp [presentsByte, hd, emitMiso]

/-- The sequencer's operations emit no byte and raise no interrupt (R47, R301). -/
theorem enabledOp_silent {i : Instr} (hi : enabledOp s = some i) :
    i ≠ .reset ∧ (∀ u, emitMiso i u = none) ∧ ∀ u, raisedInterrupt i u = none := by
  rcases enabledOp_some hi with ⟨rfl, -⟩ | ⟨rfl, -⟩ | ⟨rfl, -⟩ | ⟨rfl, -⟩ | ⟨rfl, -⟩ <;>
    exact ⟨nofun, fun _ => rfl, fun _ => rfl⟩

/-- A move that neither publishes nor resets keeps the pair, and toggles its position exactly where it presents a
BYTE. -/
theorem moveStep_keeps_pair (ht : moveStep m s = .next t) (hp : publishes m s = false)
    (hr : presents .reset m = false) :
    KeepsPair (if presentsByte m then s.byteSel.toggle else s.byteSel) s t := by
  rcases moveStep_cases ht with ⟨w, c, rfl, hd, rfl⟩ | ⟨w, i, u, rfl, hd, hu, rfl⟩ | ⟨i, u, rfl, hi, hu, rfl⟩
    | ⟨rfl, -, rfl⟩
  · exact ⟨rfl, rfl, rfl, by simp [presentsByte, hd]⟩
  · have hreset : i ≠ .reset := by rintro rfl; simp [presents, hd] at hr
    obtain ⟨htimeout, hcapture⟩ := publishes_stimulus (s := { s with schedule := [] }) hd hp
    rw [presentsByte_stimulus hd { s with schedule := [] }]
    exact { exec_keeps_pair hreset htimeout hcapture hu with }
  · obtain ⟨hreset, hsilent, hquiet⟩ := enabledOp_silent hi
    have hkept := exec_keeps_pair hreset (by simp [hquiet]) (by simp [hquiet]) hu
    rw [hsilent] at hkept
    exact { hkept with }
  · exact ⟨rfl, rfl, rfl, rfl⟩

/-- Settles O46: ARM and TEARDOWN are among the moves that keep the pair. -/
theorem publishedValuePersists : Obligations.PublishedValuePersists := by
  intro m s t ht hp hr
  obtain ⟨hdistance, hhi, hlo, -⟩ := moveStep_keeps_pair ht hp hr
  exact ⟨hdistance, hhi, hlo⟩

theorem emitted_append (later earlier : List TraceEvent) :
    emitted (later ++ earlier) = emitted earlier ++ emitted later := by
  simp [emitted]

/-- The trace entry of a stimulus holds the byte the stimulus emits: only edges are ever turned away, and they emit
none. -/
theorem eventByte_stimulus {w : Word} {i : Instr} (hd : decodePort w = .ok i) (s : State) :
    eventByte (.stimulus w (stimulusOutcome w s)) = emitMiso i s := by
  cases ha : admissionReject i s with
  | none => simp [stimulusOutcome, hd, ha, eventByte]
  | some c =>
    have hnone : emitMiso i s = none := by cases i <;> simp_all [admissionReject, emitMiso]
    simp [stimulusOutcome, hd, ha, eventByte, hnone]

/-- The trace entry of a stimulus emits the served byte where the stimulus emits one, and nothing elsewhere. -/
theorem emitted_stimulus {w : Word} {i : Instr} (hd : decodePort w = .ok i) (s : State) :
    emitted [.stimulus w (stimulusOutcome w s)] = if (emitMiso i s).isSome then [servedByte s] else [] := by
  simp only [emitted, List.reverse_singleton, List.filterMap_cons, List.filterMap_nil, eventByte_stimulus hd]
  cases i <;> rfl

/-- A move that presents a BYTE emits the byte of the position; every other move emits nothing. -/
theorem moveStep_emits (ht : moveStep m s = .next t) :
    ∃ new, t.trace = new ++ s.trace ∧ emitted new = if presentsByte m then [servedByte s] else [] := by
  rcases moveStep_cases ht with ⟨w, c, rfl, hd, rfl⟩ | ⟨w, i, u, rfl, hd, hu, rfl⟩ | ⟨i, u, rfl, -, hu, rfl⟩
    | ⟨rfl, -, rfl⟩
  · exact ⟨[_], rfl, by simp [presentsByte, hd, emitted, eventByte]⟩
  · refine ⟨[_], congrArg _ (exec_frame hu).2, ?_⟩
    rw [presentsByte_stimulus hd { s with schedule := [] }]
    exact emitted_stimulus hd { s with schedule := [] }
  · exact ⟨[_], congrArg _ (exec_frame hu).2, rfl⟩
  · exact ⟨[], rfl, rfl⟩

/-- The alternation from the position of `s` begins with the byte `s` serves (R181, R182). -/
theorem alternation_succ (s : State) (n : Nat) :
    alternation s.pubHi s.pubLo s.byteSel (n + 1)
      = servedByte s :: alternation s.pubHi s.pubLo s.byteSel.toggle n := by
  unfold servedByte
  cases s.byteSel <;> rfl

/-- The bytes of a run without Publish and RESET alternate over the pair from the position at its start, one for
each BYTE presented. -/
theorem runsUnpublished_emits {ms : List Move} (h : RunsUnpublished ms s t) :
    ∃ new, t.trace = new ++ s.trace
      ∧ emitted new = alternation s.pubHi s.pubLo s.byteSel (ms.countP presentsByte) := by
  induction ms generalizing s with
  | nil => obtain rfl : s = t := h; exact ⟨[], rfl, by simp [emitted, alternation]⟩
  | cons m ms ih =>
    obtain ⟨hp, hr, u, hu, hrest⟩ := h
    obtain ⟨-, hhi, hlo, hsel⟩ := moveStep_keeps_pair hu hp hr
    obtain ⟨first, hfirst, hbyte⟩ := moveStep_emits hu
    obtain ⟨new, hnew, hbytes⟩ := ih hrest
    refine ⟨new ++ first, by rw [hnew, hfirst, List.append_assoc], ?_⟩
    rw [emitted_append, hbytes, hbyte, hhi, hlo, hsel]
    by_cases hb : presentsByte m = true
    · simp [hb, alternation_succ]
    · simp [hb]

/-- Settles O59: both runs emit the alternation of the same pair from the same position. -/
theorem busSeesOnlyTheLatches : Obligations.BusSeesOnlyTheLatches := by
  intro ms s s' t t' hhi hlo hsel h h'
  obtain ⟨new, htrace, hbytes⟩ := runsUnpublished_emits h
  obtain ⟨new', htrace', hbytes'⟩ := runsUnpublished_emits h'
  exact ⟨new, new', htrace, htrace', by rw [hbytes, hbytes', hhi, hlo, hsel]⟩

/-- A step whose choice is a stimulus runs the stimulus and records its outcome (R85, R88). -/
theorem step_stimulus {w : Word} {rest : List Move} {i : Instr} (hs : s.schedule = .stimulus w :: rest)
    (hd : decodePort w = .ok i) (ht : exec i { s with schedule := rest } = .next t) :
    step s = .next { t with trace := .stimulus w (stimulusOutcome w { s with schedule := rest }) :: t.trace } := by
  simp [step, takeStep, hs, stimulusStep, hd, ht, recorded]

/-- Settles O26: a BYTE is admitted in every state, and the byte recorded is the one the handler leaves. -/
theorem byteStepEmitsItsByte : Obligations.ByteStepEmitsItsByte := by
  intro s w rest mosi hs hd
  refine ⟨_, step_stimulus hs hd (exec_byte mosi _), ?_, ?_⟩
  · simp [stimulusOutcome, hd, admissionReject, emitMiso]
  · cases s.byteSel <;> simp [servedByte]

end Sys2Proof.Safety
end

section
/-! The phase of the sequencer (R21), and ARM: the word of an internal operation (R88), its row of R203 and its
writes. -/

namespace Sys2Proof.Safety

open Sys2Proof.Machine

variable {s t : State}

/-- A RESET presented is performed: its admission is never refused. -/
theorem performed_reset {w : Word} {rest : List Move} (hs : s.schedule = .stimulus w :: rest)
    (hd : decodePort w = .ok .reset) : performed s = some .reset := by
  simp [performed, hs, hd, admissionReject]

/-- An operation of the sequencer moves the phase one place round its cycle (R21, R203). -/
theorem enabledOp_moves_phase {i : Instr} (hi : enabledOp s = some i) (ht : exec i s = .next t) :
    (s.seqPhase = .idle ∧ t.seqPhase = .pulse ∧ i = .trigBegin)
      ∨ (s.seqPhase = .pulse ∧ t.seqPhase = .arming ∧ i = .trigEnd)
      ∨ (s.seqPhase = .arming ∧ t.seqPhase = .wait ∧ i = .arm s.params.timeoutTicks)
      ∨ (s.seqPhase = .wait ∧ t.seqPhase = .quiet ∧ i = .teardown)
      ∨ (s.seqPhase = .quiet ∧ t.seqPhase = .idle ∧ i = .quietEnd) := by
  rcases enabledOp_some hi with ⟨rfl, hp⟩ | ⟨rfl, hp, -⟩ | ⟨rfl, hp⟩ | ⟨rfl, hp, -⟩ | ⟨rfl, hp, -⟩ <;>
    obtain ⟨-, rfl⟩ := whenEnabled_next.1 ht <;> simp [hp]

/-- The choice taken off the schedule leaves the registers as they are. -/
theorem nextMove_seqPhase (s : State) : (nextMove s).2.seqPhase = s.seqPhase := by
  unfold nextMove
  split <;> rfl

theorem nextMove_params (s : State) : (nextMove s).2.params = s.params := by
  unfold nextMove
  split <;> rfl

/-- Settles O43: a stimulus moves the phase only as RESET, and the sequencer's turn only by the enabled operation. -/
theorem phaseMovesRoundItsCycle : Obligations.PhaseMovesRoundItsCycle := by
  intro s t ht
  rcases step_cases ht with ⟨w, rest, c, -, -, rfl⟩ | ⟨w, rest, i, u, hs, hd, hu, rfl⟩ | ⟨i, u, hn, hi, hu, rfl⟩
    | ⟨-, -, rfl⟩
  · exact .inl rfl
  · by_cases hreset : i = .reset
    · subst hreset
      cases hu
      simp [performed_reset hs hd]
    · exact .inl (stimulus_frame (decodePort_stimulus hd) hreset hu).1
  · have hmove := enabledOp_moves_phase ((enabledOp_nextMove s).trans hi) hu
    rw [nextMove_seqPhase, nextMove_params] at hmove
    rw [performed_of_sequencer hn, hi]
    rcases hmove with ⟨hp, hq, rfl⟩ | ⟨hp, hq, rfl⟩ | ⟨hp, hq, rfl⟩ | ⟨hp, hq, rfl⟩ | ⟨hp, hq, rfl⟩ <;> simp [hp, hq]
  · exact .inl (nextMove_seqPhase s)

/-- The word of an internal operation stands for it in a trace and is no word of the stimulus port (R85, R88). -/
theorem traceWord_encode {i : Instr} (hi : i.opClass = .internal) : TraceWord (encode i) i := by
  have hrange := (internal_byte_iff (ofByte?_toByte i.opcode)).2 hi
  refine ⟨rfl, ?_, by simp [decodePort, hrange]⟩
  have hfields : immField (encode i) &&& i.opcode.form.zeroMask = 0 ∧ i.opcode.withImm i.imm = i := by
    cases i with
    | arm n =>
      obtain ⟨-, -, -, hzero⟩ := Laws.EncodingFields.arm n
      exact ⟨hzero, rfl⟩
    | trigBegin => exact ⟨rfl, rfl⟩
    | trigEnd => exact ⟨rfl, rfl⟩
    | teardown => exact ⟨rfl, rfl⟩
    | quietEnd => exact ⟨rfl, rfl⟩
    | _ => cases hi
  obtain ⟨hzero, hread⟩ := hfields
  simp only [immField_encode] at hzero
  simp [decodeWord, hzero, hread]

/-- ARM is the enabled operation exactly in ARMING, with the configuration's compare value (R203). -/
theorem enabledOp_arm_iff (s : State) : enabledOp s = some (.arm s.params.timeoutTicks) ↔ s.seqPhase = .arming := by
  constructor
  · intro h
    simpa using enabledOp_some h
  · intro h
    simp [enabledOp, h]

/-- Settles O16: the word's fields, the row of R203, and the writes of R121. -/
theorem armStartsTheMeasurement : Obligations.ArmStartsTheMeasurement := by
  refine ⟨fun n => traceWord_encode (i := .arm n) rfl, fun s => ⟨enabledOp_arm_iff s, fun hp n => ?_⟩⟩
  exact whenEnabled_next.2 ⟨by simp [armEnabled, hp], rfl⟩

end Sys2Proof.Safety
end

section
/-! The packed views of R44 and R45, read field by field: the parts below a field are peeled off, and what is left
starts with it. -/

namespace Sys2Proof.Machine

open BitVec (extractLsb'_append_eq_of_le extractLsb'_append_eq_right extractLsb'_eq_self)

/-- Every field of TCTRL is the register R44 names. -/
theorem tctrl_fields (s : State) :
    (tctrl s).getLsbD 0 = s.tRun ∧ (tctrl s).getLsbD 1 = s.capEn ∧ (tctrl s).getLsbD 2 = s.cmpEn
      ∧ (tctrl s).getLsbD 3 = s.capPol.bit ∧ (tctrl s).getLsbD 4 = s.echoLvl ∧ (tctrl s).getLsbD 5 = s.armedHigh
      ∧ (tctrl s).extractLsb' 6 2 = 0 := by
  have hzero : (tctrl s).extractLsb' 6 2 = 0 := by
    unfold tctrl
    iterate 6 rw [extractLsb'_append_eq_of_le (by decide)]
    exact extractLsb'_eq_self
  refine ⟨?_, ?_, ?_, ?_, ?_, ?_, hzero⟩ <;>
    simp only [tctrl, BitVec.getLsbD_append, BitVec.getLsbD_ofBool] <;> simp

/-- The fields of STATUS wider than a bit: `MEAS_STATE`, `EDGE_PHASE`, `SEQ_PHASE` and `FAULT_CODE` (R45). -/
theorem status_wide_fields (s : State) :
    (status s).extractLsb' 0 3 = s.measState.code ∧ (status s).extractLsb' 3 2 = s.edgePhase
      ∧ (status s).extractLsb' 8 3 = s.seqPhase.code ∧ (status s).extractLsb' 12 3 = s.faultCode := by
  unfold status
  refine ⟨extractLsb'_append_eq_right, ?_, ?_, ?_⟩
  · rw [extractLsb'_append_eq_of_le (by decide)]
    exact extractLsb'_append_eq_right
  · iterate 5 rw [extractLsb'_append_eq_of_le (by decide)]
    exact extractLsb'_append_eq_right
  · iterate 7 rw [extractLsb'_append_eq_of_le (by decide)]
    exact extractLsb'_append_eq_right

/-- The single bits of STATUS (R45). -/
theorem status_bits (s : State) :
    (status s).getLsbD 5 = s.cycleComplete ∧ (status s).getLsbD 6 = s.byteSel.bit ∧ (status s).getLsbD 7 = s.trig
      ∧ (status s).getLsbD 11 = s.fault ∧ (status s).getLsbD 15 = false := by
  refine ⟨?_, ?_, ?_, ?_, ?_⟩ <;>
    simp only [status, BitVec.getLsbD_append, BitVec.getLsbD_ofBool] <;> simp

/-- After RESET the echo level is the one bit of TCTRL that can be set. -/
theorem tctrl_afterReset (p : Params) (echo0 : Bool) :
    tctrl (State.afterReset p echo0) = if echo0 then 0x10 else 0x00 := by
  cases echo0 <;> simp only [tctrl, State.afterReset] <;> decide

/-- After RESET every field of STATUS is zero. -/
theorem status_afterReset (p : Params) (echo0 : Bool) : status (State.afterReset p echo0) = 0 := by
  simp only [status, State.afterReset]
  decide

/-- Settles O36: the fields of both views, and their values after RESET. -/
theorem packedViewsHoldTheirFields : Obligations.PackedViewsHoldTheirFields := by
  refine ⟨fun s => ⟨tctrl_fields s, ?_⟩, fun p => ⟨status_afterReset p _, status_afterReset p _,
    tctrl_afterReset p false, tctrl_afterReset p true⟩⟩
  obtain ⟨hmeas, hedge, hphase, hcode⟩ := status_wide_fields s
  obtain ⟨hcomplete, hsel, htrig, hfault, htop⟩ := status_bits s
  exact ⟨hmeas, hedge, hcomplete, hsel, htrig, hphase, hfault, hcode, htop⟩

end Sys2Proof.Machine
end

section
/-! The published pair through runs and steps: a run keeps the pair and toggles its position once for each byte
(R184), the low byte completes the pair its high byte began (R183), and a pair is its two bytes (R62, R160). -/

namespace Sys2Proof.Safety

open Sys2Proof.Machine

variable {s t : State}

/-- Over a run without Publish and RESET the pair is kept, and its position is toggled once for each BYTE (R184). -/
theorem runsUnpublished_keeps_pair {ms : List Move} (h : RunsUnpublished ms s t) :
    KeepsPair (positionAfter s.byteSel (ms.countP presentsByte)) s t := by
  induction ms generalizing s with
  | nil => obtain rfl : s = t := h; exact ⟨rfl, rfl, rfl, rfl⟩
  | cons m ms ih =>
    obtain ⟨hp, hr, u, hu, hrest⟩ := h
    have first := moveStep_keeps_pair hu hp hr
    have later := ih hrest
    refine ⟨later.distance.trans first.distance, later.pubHi.trans first.pubHi, later.pubLo.trans first.pubLo, ?_⟩
    rw [later.byteSel, first.byteSel]
    by_cases hb : presentsByte m = true
    · simp [hb, positionAfter]
    · simp [hb]

/-- Settles O57: the bytes of the run are its alternation, and the pair it alternates over is kept. -/
theorem bytesAlternateBetweenPublishes : Obligations.BytesAlternateBetweenPublishes := by
  intro ms s t h
  obtain ⟨new, htrace, hbytes⟩ := runsUnpublished_emits h
  obtain ⟨-, hhi, hlo, hsel⟩ := runsUnpublished_keeps_pair h
  exact ⟨new, htrace, hbytes, hsel, hhi, hlo⟩

/-- Settles O50: at position LO the byte before was `PUB_HI`, the byte served is `PUB_LO`, and the two latches hold
the Distance. -/
theorem emittedPairIsOfOnePublish : Obligations.EmittedPairIsOfOnePublish := by
  intro s t w rest mosi hc hsel hs hd ht
  rw [step_stimulus hs hd (exec_byte mosi _)] at ht
  cases ht
  have hserved : servedByte s = s.pubLo := by simp [servedByte, hsel]
  refine ⟨?_, rfl⟩
  calc pair s.lastTx (servedByte s) = pair s.pubHi s.pubLo := by rw [hc.position hsel, hserved]
    _ = s.distance := hc.pairs

/-- Settles O24: `publish` is the pseudocode of R160 with its two byte halves named. -/
theorem publishWritesTheWholePair : Obligations.PublishWritesTheWholePair := by
  intro d s
  rfl

/-- The pair of two bytes is the value a master assembles with a shift and an or (R62). -/
theorem shift_or_eq_pair (first second : Byte) :
    (first.zeroExtend 16 <<< 8) ||| second.zeroExtend 16 = pair first second := by
  rw [pair, BitVec.append_def, BitVec.shiftLeftZeroExtend_eq]
  rfl

/-- Settles O35: the assembled value is the pair of the two bytes, and that is the value they were taken from. -/
theorem highByteFirstRecoversTheValue : Obligations.HighByteFirstRecoversTheValue := by
  intro d
  exact ⟨(shift_or_eq_pair _ _).trans (pair_bytes d), pair_bytes d⟩

end Sys2Proof.Safety
end

section
/-! What a step does to the model's own fields: no step changes the configuration (R419), and the schedule is taken
move by move (R210), a step looking at its first choice alone and leaving the rest. -/

namespace Sys2Proof.Safety

open Sys2Proof.Machine

variable {s t : State}

/-- Settles O41: no meaning writes the configuration, and a rejected word and an idle turn run no meaning. -/
theorem configurationNeverChanges : Obligations.ConfigurationNeverChanges := by
  intro s t ht
  rcases step_cases ht with ⟨w, rest, c, -, -, rfl⟩ | ⟨w, rest, i, u, -, -, hu, rfl⟩ | ⟨i, u, -, -, hu, rfl⟩
    | ⟨-, -, rfl⟩
  · rfl
  · exact (exec_frame hu).1
  · exact (exec_frame hu).1.trans (nextMove_params s)
  · exact nextMove_params s

/-- What the trace records of a stimulus does not depend on the choices still to come. -/
theorem stimulusOutcome_schedule (w : Word) (s : State) (r : List Move) :
    stimulusOutcome w { s with schedule := r } = stimulusOutcome w s := by
  unfold stimulusOutcome
  cases decodePort w with
  | error c => rfl
  | ok i => simp only [admissionReject_schedule]; cases i <;> rfl

/-- The entry of the trace and the choices still to come are written independently. -/
theorem recorded_onNext_schedule (ev : TraceEvent) (r : List Move) (o : Host.Outcome State Fault Refusal) :
    recorded ev (onNext (fun t => { t with schedule := r }) o)
      = onNext (fun t => { t with schedule := r }) (recorded ev o) := by
  cases o <;> rfl

/-- A stimulus step hands on the choices still to come. -/
theorem stimulusStep_schedule (w : Word) (s : State) (r : List Move) :
    stimulusStep w { s with schedule := r } = onNext (fun t => { t with schedule := r }) (stimulusStep w s) := by
  unfold stimulusStep
  rw [stimulusOutcome_schedule, ← recorded_onNext_schedule]
  cases decodePort w with
  | error c => rfl
  | ok i => exact congrArg _ (exec_schedule i s r)

/-- The sequencer's turn hands on the choices still to come. -/
theorem sequencerStep_schedule (s : State) (r : List Move) :
    sequencerStep { s with schedule := r } = onNext (fun t => { t with schedule := r }) (sequencerStep s) := by
  have hen : enabledOp { s with schedule := r } = enabledOp s := rfl
  unfold sequencerStep
  rw [hen]
  cases enabledOp s with
  | none => rfl
  | some i => simp only [exec_schedule, recorded_onNext_schedule]

/-- A step takes the first choice as a move of its own and leaves the rest. -/
theorem step_schedule_cons (m : Move) (rest : List Move) (s : State) :
    step { s with schedule := m :: rest } = onNext (fun t => { t with schedule := rest }) (moveStep m s) := by
  cases m with
  | stimulus w => exact stimulusStep_schedule w { s with schedule := [] } rest
  | sequencer => exact sequencerStep_schedule { s with schedule := [] } rest

/-- A move leaves no choice behind. -/
theorem moveStep_schedule {m : Move} (h : moveStep m s = .next t) : { t with schedule := [] } = t := by
  have htaken : moveStep m s = onNext (fun t => { t with schedule := [] }) (moveStep m s) := step_schedule_cons m [] s
  rw [h] at htaken
  injection htaken with ht
  exact ht.symm

/-- Settles O52, by induction on the choices: the machine's first step is the first move, with the rest of the schedule
put back. -/
theorem scheduleIsRunMoveByMove : Obligations.ScheduleIsRunMoveByMove := by
  intro ms s t
  induction ms generalizing s with
  | nil => exact ⟨Host.Outcome.next.inj, congrArg _⟩
  | cons m ms ih =>
    have hstep : Sys2Proof.core.step { s with schedule := m :: ms }
        = onNext (fun t => { t with schedule := ms }) (moveStep m s) := step_schedule_cons m ms s
    have hmove : moveStep m { s with schedule := [] } = moveStep m s := rfl
    simp only [List.length_cons, Host.Core.run, Runs, hstep, hmove]
    cases hu : moveStep m s with
    | next u =>
      have hrest := ih u
      rw [moveStep_schedule hu] at hrest
      simpa [onNext] using hrest
    | fault r => simp [onNext]
    | refused r => simp [onNext]

end Sys2Proof.Safety
end

section
/-! The word format read in both directions (R80 to R83): the decoder and the encoder are inverse to each other, and
an operation's row of the opcode table is the three conditions on a word's fields that the decoder checks. -/

namespace Sys2Proof

theorem toByte_injective {o o' : Opcode} (h : o.toByte = o'.toByte) : o = o' := by
  have hread := congrArg Opcode.ofByte? h
  simpa using hread

theorem joinFields_inj {o o' r r' : BitVec 8} {i i' : BitVec 16} :
    joinFields o r i = joinFields o' r' i' ↔ o = o' ∧ r = r' ∧ i = i' := by
  constructor
  · intro h
    have hopc := congrArg opcField h
    have hrsv := congrArg rsvField h
    have himm := congrArg immField h
    simp only [opcField_joinFields, rsvField_joinFields, immField_joinFields] at hopc hrsv himm
    exact ⟨hopc, hrsv, himm⟩
  · rintro ⟨rfl, rfl, rfl⟩
    rfl

theorem joinFields_and (o o' r r' : BitVec 8) (i i' : BitVec 16) :
    joinFields o r i &&& joinFields o' r' i' = joinFields (o &&& o') (r &&& r') (i &&& i') := by
  unfold joinFields
  exact BitVec.and_append.trans (congrArg (· ++ (i &&& i')) BitVec.and_append)

/-- The upper byte of an `imm` is zero exactly for the values a byte holds (form SB of R82). -/
theorem and_highByteMask_eq_zero_iff (imm : BitVec 16) : imm &&& 0xFF00 = 0 ↔ imm.toNat < 0x100 := by
  have hsplit : Machine.highByte imm ++ Machine.lowByte imm = imm := Safety.pair_bytes imm
  have hhigh : (Machine.highByte imm).toNat = imm.toNat / 256 := by
    rw [Machine.highByte, BitVec.extractLsb'_toNat, Nat.shiftRight_eq_div_pow]
    omega
  have hand : imm &&& 0xFF00 = Machine.highByte imm ++ 0#8 := by
    calc imm &&& 0xFF00
        = (Machine.highByte imm ++ Machine.lowByte imm) &&& ((0xFF : BitVec 8) ++ 0#8) := by rw [hsplit]; rfl
      _ = (Machine.highByte imm &&& BitVec.allOnes 8) ++ (Machine.lowByte imm &&& 0#8) := BitVec.and_append
      _ = Machine.highByte imm ++ 0#8 := by rw [BitVec.and_allOnes, BitVec.and_zero]
  calc imm &&& 0xFF00 = 0
      ↔ Machine.highByte imm ++ 0#8 = 0#8 ++ 0#8 := by rw [hand]; rfl
    _ ↔ Machine.highByte imm = 0 := BitVec.append_left_inj _
    _ ↔ (Machine.highByte imm).toNat = 0 := BitVec.toNat_inj.symm
    _ ↔ imm.toNat < 0x100 := by rw [hhigh]; omega

/-- An operation is what its operation code and its `imm` stand for. -/
@[simp] theorem withImm_opcode_imm (i : Instr) : i.opcode.withImm i.imm = i := by
  cases i with
  | byte mosi =>
    have hlow : (mosi.zeroExtend 16).extractLsb' 0 8 = mosi := by
      apply BitVec.eq_of_toNat_eq
      rw [BitVec.extractLsb'_toNat, BitVec.toNat_setWidth, Nat.shiftRight_zero]
      omega
    exact congrArg Instr.byte hlow
  | _ => rfl

/-- The `imm` of an operation keeps the bits zero that its form requires to be zero (R82). -/
@[simp] theorem imm_and_zeroMask (i : Instr) : i.imm &&& i.opcode.form.zeroMask = 0 := by
  cases i with
  | staleRise v => exact BitVec.and_zero
  | byte mosi => exact Laws.EncodingFields.byte_imm_high mosi
  | arm n => exact BitVec.and_zero
  | _ => rfl

/-- No bit of a well-formed `imm` is lost in the operand (R82). -/
theorem imm_withImm {o : Opcode} {imm : BitVec 16} (h : imm &&& o.form.zeroMask = 0) : (o.withImm imm).imm = imm := by
  cases o with
  | staleRise => rfl
  | arm => rfl
  | byte =>
    have hlt : imm.toNat < 0x100 := (and_highByteMask_eq_zero_iff imm).1 h
    apply BitVec.eq_of_toNat_eq
    rw [Opcode.withImm, Instr.imm, BitVec.toNat_setWidth, BitVec.extractLsb'_toNat, Nat.shiftRight_zero]
    omega
  | _ => exact (BitVec.and_allOnes.symm.trans h).symm

/-- A word whose fields are as its row requires decodes to that row's operation (R82, R83). -/
theorem decodeWord_of_fields {w : Word} {o : Opcode} (hopc : opcField w = o.toByte) (hrsv : rsvField w = 0)
    (himm : immField w &&& o.form.zeroMask = 0) : decodeWord w = .ok (o.withImm (immField w)) := by
  simp [decodeWord, hopc, hrsv, himm]

@[simp] theorem decodeWord_encode (i : Instr) : decodeWord (encode i) = .ok i := by
  have h := decodeWord_of_fields (opcField_encode i) (rsvField_encode i) (by simp)
  simpa using h

/-- Settles O2: the fields of the word are those of the operation, and the operation is read back from them. -/
theorem decodeOfEncodeIsTheInstruction : Obligations.DecodeOfEncodeIsTheInstruction :=
  decodeWord_encode

/-- Settles O3: the three fields of a word that decodes are those its operation is encoded with. -/
theorem encodeOfDecodeIsTheWord : Obligations.EncodeOfDecodeIsTheWord := by
  intro w i h
  obtain ⟨o, ho, hrsv, himm, rfl⟩ := decodeWord_ok h
  calc encode (o.withImm (immField w))
      = joinFields o.toByte 0 (immField w) := by simp only [encode, Opcode.opcode_withImm, imm_withImm himm]
    _ = joinFields (opcField w) (rsvField w) (immField w) := by rw [toByte_of_ofByte? ho, hrsv]
    _ = w := joinFields_fields w

/-- A word matches a row of the opcode table exactly where its three fields are as the row requires. -/
theorem matches_row_iff (w : Word) (o : Opcode) :
    w &&& o.mask = o.pattern
      ↔ opcField w = o.toByte ∧ rsvField w = 0 ∧ immField w &&& o.form.zeroMask = 0 := by
  have hand : w &&& o.mask = joinFields (opcField w) (rsvField w) (immField w &&& o.form.zeroMask) := by
    calc w &&& o.mask
        = joinFields (opcField w) (rsvField w) (immField w)
            &&& joinFields (BitVec.allOnes 8) (BitVec.allOnes 8) o.form.zeroMask := by rw [joinFields_fields]; rfl
      _ = _ := by rw [joinFields_and, BitVec.and_allOnes, BitVec.and_allOnes]
  rw [hand]
  exact joinFields_inj

/-- The decoder reads a word as an operation of the code `o` exactly where the word matches the row of `o`. -/
theorem decodes_to_opcode_iff (w : Word) (o : Opcode) :
    (∃ i, decodeWord w = .ok i ∧ i.opcode = o) ↔ w &&& o.mask = o.pattern := by
  rw [matches_row_iff]
  constructor
  · rintro ⟨i, hd, rfl⟩
    obtain ⟨o, ho, hrsv, himm, rfl⟩ := decodeWord_ok hd
    rw [Opcode.opcode_withImm]
    exact ⟨(toByte_of_ofByte? ho).symm, hrsv, himm⟩
  · rintro ⟨hopc, hrsv, himm⟩
    exact ⟨_, decodeWord_of_fields hopc hrsv himm, Opcode.opcode_withImm _ _⟩

/-- Settles O4: a row fixes the whole operation code byte, so two rows that match one word have one byte. -/
theorem decoderFollowsTheOpcodeTable : Obligations.DecoderFollowsTheOpcodeTable := by
  refine ⟨decodes_to_opcode_iff, fun w o o' h h' => toByte_injective ?_⟩
  obtain ⟨hopc, -⟩ := (matches_row_iff w o).1 h
  obtain ⟨hopc', -⟩ := (matches_row_iff w o').1 h'
  exact hopc.symm.trans hopc'

end Sys2Proof
end

section
/-! The stimulus port (R85, R86): which words it accepts, and which it rejects with codes 1, 2 and 3. -/

namespace Sys2Proof

/-- Outside the internal operation codes the port reads a word as a trace word is read. -/
theorem decodePort_eq_decodeWord {w : Word} (h : ¬ (0x10 ≤ (opcField w).toNat ∧ (opcField w).toNat ≤ 0x14)) :
    decodePort w = decodeWord w :=
  if_neg h

/-- The port accepts every word of a stimulus. -/
theorem decodePort_of_stimulus {w : Word} {i : Instr} (hd : decodeWord w = .ok i) (hi : i.opClass = .stimulus) :
    decodePort w = .ok i := by
  obtain ⟨o, ho, -, -, rfl⟩ := decodeWord_ok hd
  have hclass : o.opClass = .stimulus := by simpa [Instr.opClass] using hi
  have hrange : ¬ (0x10 ≤ (opcField w).toNat ∧ (opcField w).toNat ≤ 0x14) := by
    rw [internal_byte_iff ho, hclass]
    decide
  rw [decodePort_eq_decodeWord hrange, hd]

theorem decodePort_encode {i : Instr} (hi : i.opClass = .stimulus) : decodePort (encode i) = .ok i :=
  decodePort_of_stimulus (decodeWord_encode i) hi

/-- Settles O5: the operation codes the port adds to the rejected ones are those of the internal operations. -/
theorem portAcceptsExactlyTheStimulusWords : Obligations.PortAcceptsExactlyTheStimulusWords := by
  intro w i
  constructor
  · intro h
    exact ⟨(decodePort_ok h).1, Machine.decodePort_stimulus h⟩
  · rintro ⟨hd, hi⟩
    exact decodePort_of_stimulus hd hi

/-- Settles O1: each literal is the word of its row. -/
theorem opcodeMapWordsDecode : Obligations.OpcodeMapWordsDecode :=
  ⟨decodePort_encode (i := .tick) rfl, decodePort_encode (i := .rise) rfl, decodePort_encode (i := .fall) rfl,
    decodePort_encode (i := .staleRise 0x1234) rfl, decodePort_encode (i := .byte 0xAB) rfl,
    decodePort_encode (i := .ustick) rfl, decodePort_encode (i := .reset) rfl,
    decodeWord_encode .trigBegin, decodeWord_encode .trigEnd, decodeWord_encode (.arm 40000),
    decodeWord_encode .teardown, decodeWord_encode .quietEnd⟩

/-- The reserved operation codes are the bytes R86 lists. -/
theorem ofByte?_eq_none_iff (b : BitVec 8) :
    Opcode.ofByte? b = none ↔ b.toNat = 0x00 ∨ (0x08 ≤ b.toNat ∧ b.toNat ≤ 0x0F) ∨ 0x15 ≤ b.toNat := by
  revert b
  decide

theorem decodePort_reserved {w : Word}
    (h : (opcField w).toNat = 0x00 ∨ (0x08 ≤ (opcField w).toNat ∧ (opcField w).toNat ≤ 0x0F)
      ∨ 0x15 ≤ (opcField w).toNat) : decodePort w = .error .opcode := by
  rw [decodePort_eq_decodeWord (by omega)]
  simp [decodeWord, (ofByte?_eq_none_iff _).2 h]

theorem decodePort_internal {w : Word} (h : 0x10 ≤ (opcField w).toNat ∧ (opcField w).toNat ≤ 0x14) :
    decodePort w = .error .internal :=
  if_pos h

/-- A word of a listed operation code with a bit set that its row requires to be zero is no word (R82). -/
theorem decodeWord_malformed {w : Word} {o : Opcode} (ho : Opcode.ofByte? (opcField w) = some o)
    (h : rsvField w ≠ 0 ∨ immField w &&& o.form.zeroMask ≠ 0) : decodeWord w = .error .field := by
  simp only [decodeWord, ho]
  by_cases hrsv : rsvField w = 0
  · have himm := h.resolve_left (not_not_intro hrsv)
    rw [if_neg (not_not_intro hrsv), if_pos himm]
  · rw [if_pos hrsv]

/-- STALE_RISE, BYTE and ARM have a form of their own; every other operation has no operand (R83). -/
theorem form_cases (o : Opcode) :
    (o = .staleRise ∧ o.form = .sv) ∨ (o = .byte ∧ o.form = .sb) ∨ (o = .arm ∧ o.form = .sa) ∨ o.form = .s0 := by
  cases o <;> decide

/-- An operand that R82 does not allow under a stimulus's operation code sets a bit that its row requires to be
zero. -/
theorem and_zeroMask_ne_zero {o : Opcode} {imm : BitVec 16} (hstimulus : o.toByte.toNat ≤ 0x07)
    (h : (o.toByte.toNat = 0x05 ∧ 0x100 ≤ imm.toNat) ∨ (o.toByte.toNat ≠ 0x04 ∧ o.toByte.toNat ≠ 0x05 ∧ imm ≠ 0)) :
    imm &&& o.form.zeroMask ≠ 0 := by
  rcases form_cases o with ⟨rfl, -⟩ | ⟨rfl, -⟩ | ⟨rfl, -⟩ | hform
  · simp [Opcode.toByte] at h
  · have hge : 0x100 ≤ imm.toNat := by simpa [Opcode.toByte] using h
    exact fun hzero => absurd ((and_highByteMask_eq_zero_iff imm).1 hzero) (by omega)
  · simp [Opcode.toByte] at hstimulus
  · have hne : imm ≠ 0 := by
      rcases h with ⟨-, hge⟩ | ⟨-, -, hne⟩
      · rintro rfl
        exact absurd hge (by decide)
      · exact hne
    rw [hform]
    exact fun hzero => hne (BitVec.and_allOnes.symm.trans hzero)

theorem decodePort_malformed {w : Word} (hopc : 0x01 ≤ (opcField w).toNat ∧ (opcField w).toNat ≤ 0x07)
    (h : rsvField w ≠ 0 ∨ ((opcField w).toNat = 0x05 ∧ 0x100 ≤ (immField w).toNat)
      ∨ ((opcField w).toNat ≠ 0x04 ∧ (opcField w).toNat ≠ 0x05 ∧ immField w ≠ 0)) : decodePort w = .error .field := by
  rw [decodePort_eq_decodeWord (by omega)]
  cases ho : Opcode.ofByte? (opcField w) with
  | none => exact absurd ((ofByte?_eq_none_iff _).1 ho) (by omega)
  | some o =>
    rw [← toByte_of_ofByte? ho] at hopc h
    exact decodeWord_malformed ho (h.imp_right (and_zeroMask_ne_zero hopc.2))

end Sys2Proof
end

section
/-! One step of each kind of choice (R210): a rejected word, a stimulus, the sequencer's turn, and the step after a
word is placed with `withFetchWord`. -/

namespace Sys2Proof.Safety

open Sys2Proof.Machine

variable {s t : State} {i : Instr}

/-- A word the port's decoder rejects changes the fault registers, the schedule and the trace (R310). -/
theorem step_rejected {w : Word} {rest : List Move} {c : RejectCode} (hs : s.schedule = .stimulus w :: rest)
    (hd : decodePort w = .error c) : step s = .next (afterReject c w rest s) := by
  simp [step, takeStep, hs, stimulusStep, stimulusOutcome, hd, recorded, reject, afterReject]

/-- Settles O6, by the three ranges of operation codes R86 names. -/
theorem portRejectsReservedInternalAndMalformed : Obligations.PortRejectsReservedInternalAndMalformed := by
  intro s w rest hs
  refine ⟨fun h => ?reserved, fun h => ?internal, fun hopc h => ?malformed⟩
  case reserved => exact step_rejected hs (decodePort_reserved h)
  case internal => exact step_rejected hs (decodePort_internal h)
  case malformed => exact step_rejected hs (decodePort_malformed hopc h)

/-- Settles O7: it is what a step does where its choice is a stimulus. -/
theorem stepRunsTheDecodedStimulus : Obligations.StepRunsTheDecodedStimulus :=
  fun _ _ _ _ _ hs hd ht => step_stimulus hs hd ht

/-- With no choice left it is the sequencer's turn (R210). -/
theorem step_sequencer {rest : List Move} (hs : s.schedule = .sequencer :: rest ∨ (s.schedule = [] ∧ rest = [])) :
    step s = sequencerStep { s with schedule := rest } := by
  unfold step takeStep
  rcases hs with hs | ⟨hs, rfl⟩
  · rw [hs]
  · have hself : { s with schedule := [] } = s := by rw [← hs]
    rw [hself, hs]

/-- The enabled operation runs on the sequencer's turn and is recorded as its word (R88, R203). -/
theorem sequencerStep_enabled (hi : enabledOp s = some i) (ht : exec i s = .next t) :
    sequencerStep s = .next { t with trace := .internal (encode i) :: t.trace } := by
  simp [sequencerStep, hi, ht, recorded]

/-- The sequencer performs operations of the configuration only: its ARM carries `TIMEOUT_TICKS` (R82, R203). -/
theorem enabledOp_wf (hi : enabledOp s = some i) : i.wf s.params = true := by
  rcases enabledOp_some hi with ⟨rfl, -⟩ | ⟨rfl, -⟩ | ⟨rfl, -⟩ | ⟨rfl, -⟩ | ⟨rfl, -⟩ <;> simp [Instr.wf]

theorem enabledOp_schedule (s : State) (r : List Move) : enabledOp { s with schedule := r } = enabledOp s := rfl

/-- Settles O8: the enabled operation does not depend on the choices still to come. -/
theorem stepRunsTheEnabledOperation : Obligations.StepRunsTheEnabledOperation := by
  intro s rest hs
  rw [step_sequencer hs, ← enabledOp_schedule s rest]
  refine ⟨fun i t hi ht => ⟨enabledOp_wf hi, sequencerStep_enabled hi ht⟩, fun hnone => ?_⟩
  simp [sequencerStep, hnone]

/-- The bits of a word, given as a number, are the word (R80). -/
theorem ofNat_toNat_mod (w : Word) : BitVec.ofNat 32 (w.toNat % 2 ^ 32) = w := by
  rw [Nat.mod_eq_of_lt w.isLt, BitVec.ofNat_toNat, BitVec.setWidth_eq]

theorem withFetchWord_encode_stimulus (hi : i.opClass = .stimulus) (s : State) :
    s.withFetchWord 32 (encode i).toNat = { s with schedule := .stimulus (encode i) :: s.schedule } := by
  simp only [State.withFetchWord, placeWord, ofNat_toNat_mod, decodeWord_encode, hi]

theorem withFetchWord_encode_internal (hi : i.opClass = .internal) (s : State) :
    s.withFetchWord 32 (encode i).toNat = enableFor i { s with schedule := .sequencer :: s.schedule } := by
  simp only [State.withFetchWord, placeWord, ofNat_toNat_mod, decodeWord_encode, hi]

/-- Preparing an operation's phase leaves the choices to come as they are. -/
theorem enableFor_schedule (i : Instr) (s : State) (r : List Move) :
    enableFor i { s with schedule := r } = { enableFor i s with schedule := r } := by
  cases i <;> rfl

/-- The state prepared for an internal operation enables it (R203). -/
theorem enabledOp_enableFor (hi : i.opClass = .internal) (s : State) : enabledOp (enableFor i s) = some i := by
  cases i with
  | trigBegin => rfl
  | trigEnd => rfl
  | arm n => rfl
  | teardown => rfl
  | quietEnd => rfl
  | _ => cases hi

/-- The prepared state already holds the choices `s` holds. -/
theorem enableFor_schedule_self (i : Instr) (s : State) :
    { enableFor i s with schedule := s.schedule } = enableFor i s :=
  (enableFor_schedule i s s.schedule).symm

/-- Settles O9: a stimulus word is the next choice, and an internal word the sequencer's turn in a state that enables
its operation. -/
theorem placedWordRunsNext : Obligations.PlacedWordRunsNext := by
  intro s i
  refine ⟨fun hi t ht => ?stimulus, fun hi => ?internal⟩
  case stimulus =>
    rw [withFetchWord_encode_stimulus hi]
    exact step_stimulus (rest := s.schedule) rfl (decodePort_encode hi) ht
  case internal =>
    obtain ⟨t, ht⟩ := exec_enabledOp_next (enabledOp_enableFor hi s)
    refine ⟨t, ht, ?_⟩
    rw [withFetchWord_encode_internal hi, enableFor_schedule, step_sequencer (rest := s.schedule) (.inl rfl)]
    simp only [enableFor_schedule_self]
    exact sequencerStep_enabled (enabledOp_enableFor hi s) ht

/-- Settles O37: the words the expansions repeat are the words of TICK, USTICK, BYTE, RISE and FALL. -/
theorem pseudoInstructionsExpand : Obligations.PseudoInstructionsExpand :=
  fun _ _ _ _ => ⟨rfl, rfl, rfl, rfl, rfl, rfl⟩

end Sys2Proof.Safety
end

section
/-! The pulse emitter (R101 to R106): the row of R203 and the writes of TRIG_BEGIN and TRIG_END, the word and the count
of USTICK, and the echo edges outside phase WAIT. -/

namespace Sys2Proof.Safety

open Sys2Proof.Machine

variable {s t : State}

/-- TRIG_BEGIN is the enabled operation exactly in IDLE (R203). -/
theorem enabledOp_trigBegin_iff (s : State) : enabledOp s = some .trigBegin ↔ s.seqPhase = .idle := by
  constructor
  · intro h
    simpa using enabledOp_some h
  · intro h
    simp [enabledOp, h]

/-- TRIG_END is the enabled operation exactly in PULSE with the delay run out (R203). -/
theorem enabledOp_trigEnd_iff (s : State) :
    enabledOp s = some .trigEnd ↔ s.seqPhase = .pulse ∧ s.seqDelay = 0 := by
  constructor
  · intro h
    simpa using enabledOp_some h
  · rintro ⟨hp, hd⟩
    simp [enabledOp, hp, hd]

/-- QUIET_END is the enabled operation exactly in QUIET with the delay run out (R203). -/
theorem enabledOp_quietEnd_iff (s : State) :
    enabledOp s = some .quietEnd ↔ s.seqPhase = .quiet ∧ s.seqDelay = 0 := by
  constructor
  · intro h
    simpa using enabledOp_some h
  · rintro ⟨hp, hd⟩
    simp [enabledOp, hp, hd]

/-- Settles O13: the word's fields, the row of R203, and the writes of R101. -/
theorem trigBeginStartsThePulse : Obligations.TrigBeginStartsThePulse := by
  refine ⟨traceWord_encode (i := .trigBegin) rfl, fun s => ⟨enabledOp_trigBegin_iff s, fun hp => ?_⟩⟩
  exact whenEnabled_next.2 ⟨by simp [trigBeginEnabled, hp], rfl⟩

/-- Settles O14: the word's fields, the row of R203, and the writes of R102. -/
theorem trigEndEndsThePulse : Obligations.TrigEndEndsThePulse := by
  refine ⟨traceWord_encode (i := .trigEnd) rfl, fun s => ⟨enabledOp_trigEnd_iff s, fun hp hd => ?_⟩⟩
  exact whenEnabled_next.2 ⟨by simp [trigEndEnabled, hp, hd], rfl⟩

/-- The port reads the words of a stimulus's operation code as that stimulus, or rejects them with code 3 (R82, R85). -/
theorem portWord_of_stimulus {o : Opcode} (ho : o.opClass = .stimulus) :
    PortWord o.toByte o.form.zeroMask o.withImm := by
  intro w hopc
  have hread : Opcode.ofByte? (opcField w) = some o := by rw [hopc, ofByte?_toByte]
  have hrange : ¬ (0x10 ≤ (opcField w).toNat ∧ (opcField w).toNat ≤ 0x14) := by
    rw [internal_byte_iff hread, ho]
    decide
  rw [decodePort_eq_decodeWord hrange]
  split
  · next hzero => exact decodeWord_of_fields hopc hzero.1 hzero.2
  · next hzero => exact decodeWord_malformed hread (not_and_or.1 hzero)

/-- The delay counter stops at zero (R103). -/
theorem countDown_zero : countDown 0 = 0 := rfl

theorem countDown_of_ne_zero {d : Ticks} (h : d ≠ 0) : countDown d = d - 1 :=
  if_neg h

/-- Settles O15: the word of USTICK, and the delay counted down or left at zero. -/
theorem ustickCountsTheDelayDown : Obligations.UstickCountsTheDelayDown := by
  refine ⟨portWord_of_stimulus (o := .ustick) rfl, fun s => ⟨fun hd => ?_, fun hd => ?_⟩⟩
  · rw [exec_ustick, countDown_of_ne_zero hd]
  · rw [exec_ustick, hd, countDown_zero, ← hd]

/-- Outside phase WAIT the capture is off and no line is armed high (R52, R57). -/
theorem Coupled.captureOff_of_ne_wait (h : Coupled s) (hp : s.seqPhase ≠ .wait) :
    s.capEn = false ∧ s.armedHigh = false := by
  obtain ⟨-, -, hcap, -, -⟩ := h.phase
  obtain ⟨-, harmed, -⟩ := h.delay
  exact ⟨Bool.eq_false_iff.2 (mt hcap.1 hp), Bool.eq_false_iff.2 fun ha => hp (harmed ha).1⟩

/-- Where no line is armed high, an edge that is not captured moves the level alone. -/
theorem moveLine_of_not_armedHigh (harmed : s.armedHigh = false) (level : Bool) :
    { s with echoLvl := level, armedHigh := false } = { s with echoLvl := level } := by
  rw [← harmed]

/-- Settles O49: with the capture off neither edge is captured, and STALE_RISE is not admitted. -/
theorem edgesOutsideWaitOnlyMoveTheLevel : Obligations.EdgesOutsideWaitOnlyMoveTheLevel := by
  intro s hc hp
  obtain ⟨hcap, harmed⟩ := hc.captureOff_of_ne_wait hp
  refine ⟨fun hl => ?rise, fun hl => ?fall, fun v => ?stale⟩
  case rise =>
    rcases exec_rise s with ⟨hl', -⟩ | ⟨-, -, e⟩ | ⟨-, hcaptured, -⟩
    · simp [hl] at hl'
    · rw [e, moveLine_of_not_armedHigh harmed]
    · simp [capturesRising, hcap] at hcaptured
  case fall =>
    rcases exec_fall s with ⟨hl', -⟩ | ⟨-, -, e⟩ | ⟨-, hcaptured, -⟩
    · simp [hl] at hl'
    · rw [e, moveLine_of_not_armedHigh harmed]
    · simp [capturesFalling, hcap] at hcaptured
  case stale =>
    rcases exec_staleRise v s with ⟨-, e⟩ | ⟨hadmitted, -⟩
    · exact e
    · simp [staleAdmitted, hcap] at hadmitted

end Sys2Proof.Safety
end

section
/-! The timed phases PULSE and QUIET (R104, R205): while the delay runs no internal operation is enabled, so every move
short of RESET keeps the phase and the trigger, and the USTICKs alone count the delay off. -/

namespace Sys2Proof.Safety

open Sys2Proof.Machine

variable {s t u : State} {m : Move} {ms : List Move} {n k : Nat}

/-- A phase that `SEQ_DELAY` times (R25): PULSE or QUIET. -/
def Timed (s : State) : Prop := s.seqPhase = .pulse ∨ s.seqPhase = .quiet

/-- `t` is in the phase of `s` with the trigger at the same level, and `n` USTICKs are counted off the delay. -/
structure CountedOff (n : Nat) (s t : State) : Prop where
  phase : t.seqPhase = s.seqPhase
  trig : t.trig = s.trig
  delay : t.seqDelay.toNat = s.seqDelay.toNat - n

theorem CountedOff.trans (first : CountedOff n s t) (later : CountedOff k t u) : CountedOff (n + k) s u where
  phase := later.phase.trans first.phase
  trig := later.trig.trans first.trig
  delay := by rw [later.delay, first.delay, Nat.sub_sub]

theorem CountedOff.timed (h : CountedOff n s t) (hs : Timed s) : Timed t := by
  rwa [Timed, h.phase]

/-- In a timed phase whose delay runs no internal operation is enabled (R203). -/
theorem Timed.enabledOp_eq_none (hs : Timed s) (hd : 0 < s.seqDelay.toNat) : enabledOp s = none := by
  have hne : s.seqDelay ≠ 0 := by
    intro h
    simp [h] at hd
  rcases hs with hp | hp <;> simpa [enabledOp, hp] using hne

/-- With fewer USTICKs than the delay the timed phase goes on, and nothing is enabled. -/
theorem CountedOff.enabledOp_eq_none (h : CountedOff n s t) (hs : Timed s) (hn : n < s.seqDelay.toNat) :
    enabledOp t = none := by
  refine (h.timed hs).enabledOp_eq_none ?_
  rw [h.delay]
  exact Nat.sub_pos_of_lt hn

/-- With as many USTICKs as the delay, the delay has run out. -/
theorem CountedOff.delay_eq_zero (h : CountedOff n s t) (hn : n = s.seqDelay.toNat) : t.seqDelay = 0 := by
  apply BitVec.eq_of_toNat_eq
  rw [h.delay, hn, Nat.sub_self]
  rfl

theorem countDown_toNat (d : Ticks) : (countDown d).toNat = d.toNat - 1 := by
  by_cases hd : d = 0
  · rw [hd, countDown_zero]
    rfl
  · rw [countDown_of_ne_zero hd]
    bv_omega

theorem countOf_append (i : Instr) (a b : List Move) : countOf i (a ++ b) = countOf i a + countOf i b :=
  List.countP_append

/-- A rejected word is no stimulus. -/
theorem countOf_rejected {w : Word} {c : RejectCode} (hd : decodePort w = .error c) (i : Instr) :
    countOf i [.stimulus w] = 0 := by
  simp [countOf, presents, hd]

theorem countOf_stimulus {w : Word} {i : Instr} (hd : decodePort w = .ok i) (j : Instr) :
    countOf j [.stimulus w] = if i = j then 1 else 0 := by
  simp [countOf, presents, hd, List.countP_singleton]

/-- A stimulus other than RESET counts the delay down if it is USTICK, and keeps it otherwise (R103). -/
theorem stimulus_countedOff {i : Instr} (hi : i.opClass = .stimulus) (hreset : i ≠ .reset) (ht : exec i s = .next t) :
    CountedOff (if i = .ustick then 1 else 0) s t := by
  obtain ⟨hp, htrig, hother, hustick, -⟩ := stimulus_frame hi hreset ht
  refine ⟨hp, htrig, ?_⟩
  split
  · next h => rw [hustick h]; exact countDown_toNat _
  · next h => rw [hother h, Nat.sub_zero]

/-- Where no internal operation is enabled, a move other than RESET counts one off the delay if it is a USTICK, and
does nothing else to the sequencer's registers. -/
theorem moveStep_countedOff (hnone : enabledOp s = none) (hr : presents .reset m = false)
    (ht : moveStep m s = .next t) : CountedOff (countOf .ustick [m]) s t := by
  rcases moveStep_cases ht with ⟨w, c, rfl, hd, rfl⟩ | ⟨w, i, u, rfl, hd, hu, rfl⟩ | ⟨i, u, -, hi, -, -⟩ | ⟨rfl, -, rfl⟩
  · rw [countOf_rejected hd]
    exact ⟨rfl, rfl, rfl⟩
  · have hreset : i ≠ .reset := by
      rintro rfl
      simp [presents, hd] at hr
    rw [countOf_stimulus hd]
    exact { stimulus_countedOff (decodePort_stimulus hd) hreset hu with }
  · simp [hnone] at hi
  · exact ⟨rfl, rfl, rfl⟩

/-- A run with fewer USTICKs than the delay of a timed phase stays in the phase and counts each of them off. -/
theorem runs_countedOff (hs : Timed s) (hr : Without .reset ms) (h : Runs ms s t)
    (hn : countOf .ustick ms < s.seqDelay.toNat) : CountedOff (countOf .ustick ms) s t := by
  induction ms generalizing s with
  | nil =>
    obtain rfl : s = t := h
    exact ⟨rfl, rfl, rfl⟩
  | cons m ms ih =>
    obtain ⟨u, hu, hrest⟩ := h
    obtain ⟨hm, hms⟩ := List.forall_mem_cons.1 hr
    have hsum : countOf .ustick (m :: ms) = countOf .ustick [m] + countOf .ustick ms := countOf_append _ [m] ms
    rw [hsum] at hn ⊢
    have first := moveStep_countedOff (hs.enabledOp_eq_none (by omega)) hm hu
    have hleft : countOf .ustick ms < u.seqDelay.toNat := by
      rw [first.delay]
      omega
    exact first.trans (ih (first.timed hs) hms hrest hleft)

/-- A run whose last move is the USTICK that makes their number the delay ends in the phase it began in. -/
theorem runs_countedOff_last (hs : Timed s) (hr : Without .reset (ms ++ [m])) (h : Runs (ms ++ [m]) s t)
    (hm : presents .ustick m = true) (hn : countOf .ustick (ms ++ [m]) = s.seqDelay.toNat) :
    CountedOff (countOf .ustick (ms ++ [m])) s t := by
  obtain ⟨hms, hlast⟩ := List.forall_mem_append.1 hr
  obtain ⟨u, hu, v, hv, rfl⟩ := runs_append.1 h
  have hone : countOf .ustick [m] = 1 := by simp [countOf, hm]
  rw [countOf_append, hone] at hn
  have hbefore : countOf .ustick ms < s.seqDelay.toNat := by omega
  have first := runs_countedOff hs hms hu hbefore
  rw [countOf_append]
  exact first.trans
    (moveStep_countedOff (first.enabledOp_eq_none hs hbefore) (hlast m (List.mem_singleton_self m)) hv)

/-- Settles O53: TRIG_BEGIN enters the timed phase PULSE with the trigger high and the delay at `TRIG_PULSE_US`. -/
theorem pulseLastsItsMicroseconds : Obligations.PulseLastsItsMicroseconds := by
  intro s s₀ t ms hbegin hr hrun
  obtain ⟨-, rfl⟩ := whenEnabled_next.1 hbegin
  refine ⟨fun hn => ?_, ?_⟩
  · have hcounted := runs_countedOff (.inl rfl) hr hrun hn
    exact ⟨hcounted.phase, hcounted.trig, hcounted.enabledOp_eq_none (.inl rfl) hn, hcounted.delay⟩
  · rintro m ms rfl hm hn
    have hcounted := runs_countedOff_last (.inl rfl) hr hrun hm hn
    exact ⟨hcounted.phase, hcounted.trig, (enabledOp_trigEnd_iff t).2 ⟨hcounted.phase, hcounted.delay_eq_zero hn⟩⟩

/-- Settles O54: TEARDOWN enters the timed phase QUIET with the delay at `QUIET_US`. -/
theorem quietPeriodLastsItsMicroseconds : Obligations.QuietPeriodLastsItsMicroseconds := by
  intro s s₀ t ms hteardown hr hrun
  obtain ⟨-, rfl⟩ := whenEnabled_next.1 hteardown
  refine ⟨fun hn => ?_, ?_, fun hzero => (enabledOp_quietEnd_iff _).2 ⟨rfl, hzero⟩⟩
  · have hcounted := runs_countedOff (.inr rfl) hr hrun hn
    exact ⟨hcounted.phase, hcounted.enabledOp_eq_none (.inr rfl) hn, hcounted.delay⟩
  · rintro m ms rfl hm hn
    have hcounted := runs_countedOff_last (.inr rfl) hr hrun hm hn
    exact ⟨hcounted.phase, (enabledOp_quietEnd_iff t).2 ⟨hcounted.phase, hcounted.delay_eq_zero hn⟩⟩

end Sys2Proof.Safety
end

section
/-! The measurement in progress (R124, R212): the counter runs below the compare value, no internal operation is enabled,
so every move short of RESET counts its TICK on, or completes the cycle. -/

namespace Sys2Proof.Safety

open Sys2Proof.Machine

variable {s t : State} {m : Move} {ms : List Move} {n : Nat}

/-- An awaiting cycle in phase WAIT whose timer runs, with the compare value still ahead of the counter. -/
structure Measuring (s : State) : Prop where
  phase : s.seqPhase = .wait
  running : s.tRun = true
  compare : s.cmpEn = true
  awaiting : s.measState.awaiting = true
  incomplete : s.cycleComplete = false
  ahead : s.tcnt < s.tcmp

/-- `t` is the measurement of `s` still in progress, `n` TICKs later. -/
structure CountedOn (n : Nat) (s t : State) : Prop where
  measuring : Measuring t
  tcmp : t.tcmp = s.tcmp
  tcnt : t.tcnt.toNat = s.tcnt.toNat + n

/-- The couplings of R52, R53 and R55 put every awaiting cycle in such a state. -/
theorem Coupled.measuring (h : Coupled s) (ha : s.measState.awaiting = true) : Measuring s := by
  obtain ⟨-, hrun, -, hcmp, -⟩ := h.phase
  obtain ⟨-, -, -, hcomplete⟩ := h.edge
  have hp : s.seqPhase = .wait := h.wait_of_ne_idle fun hm => by simp [hm, MeasState.awaiting] at ha
  refine ⟨hp, hrun.2 hp, hcmp.2 hp, ha, Bool.eq_false_iff.2 fun hc => ?_, (h.counter ha).1⟩
  rcases hcomplete.1 hc with hm | hm <;> simp [hm, MeasState.awaiting] at ha

/-- No internal operation is enabled before the cycle is complete (R203). -/
theorem Measuring.enabledOp_eq_none (h : Measuring s) : enabledOp s = none := by
  simp [enabledOp, h.phase, h.incomplete]

/-- Below the compare value the counter does not wrap. -/
theorem nextCount_toNat_of_lt {c k : Ticks} (h : c < k) : (nextCount c).toNat = c.toNat + 1 := by
  unfold nextCount add16
  bv_omega

/-- A TICK counts one on, or is the match that completes the cycle (R123, R155). -/
theorem Measuring.tick (h : Measuring s) (ht : exec .tick s = .next t) :
    t.cycleComplete = true ∨ CountedOn 1 s t := by
  rcases exec_tick s with ⟨hstopped, -⟩ | ⟨-, hmatch, e⟩ | ⟨-, -, e⟩
  · simp [h.running] at hstopped
  · rw [e] at ht
    cases ht
    have hne : nextCount s.tcnt ≠ s.tcmp := by simpa [matchesNext, h.compare] using hmatch
    exact .inr ⟨{ h with ahead := nextCount_lt h.ahead hne }, rfl, nextCount_toNat_of_lt h.ahead⟩
  · rw [e] at ht
    cases ht
    rcases timeoutHandler_cases { s with tcnt := nextCount s.tcnt } with ⟨-, e⟩ | ⟨hidle, -⟩
    · exact .inl (by rw [e]; rfl)
    · simp [h.awaiting] at hidle

/-- A capture records the rising edge, or resolves and so completes the cycle (R152, R153). -/
theorem Measuring.capture (h : Measuring s) (v : Ticks) :
    (capture v s).cycleComplete = true ∨ CountedOn 0 s (capture v s) := by
  rcases capture_cases v s with ⟨-, e⟩ | ⟨-, e⟩ | ⟨hidle, -⟩
  · rw [e]
    exact .inr ⟨{ h with awaiting := rfl }, rfl, rfl⟩
  · exact .inl (by rw [e]; rfl)
  · simp [h.awaiting] at hidle

/-- A stimulus other than RESET counts one on if it is TICK and none otherwise, or completes the cycle. -/
theorem Measuring.stimulus (h : Measuring s) {i : Instr} (hi : i.opClass = .stimulus) (hreset : i ≠ .reset)
    (ht : exec i s = .next t) : t.cycleComplete = true ∨ CountedOn (if i = .tick then 1 else 0) s t := by
  have rejected : ∀ c, CountedOn 0 s (Machine.reject c s) := fun c => ⟨{ h with }, rfl, rfl⟩
  have moved : ∀ level, Measuring { s with echoLvl := level, armedHigh := false } := fun level => { h with }
  have captured : ∀ level v, let u := Machine.capture v { s with echoLvl := level, armedHigh := false }
      u.cycleComplete = true ∨ CountedOn 0 s u :=
    fun level v => ((moved level).capture v).imp_right fun hc => { hc with }
  cases i with
  | tick => exact h.tick ht
  | rise =>
    rcases exec_rise s with ⟨-, e⟩ | ⟨-, -, e⟩ | ⟨-, -, e⟩ <;> rw [e] at ht <;> cases ht
    · exact .inr (rejected _)
    · exact .inr ⟨moved _, rfl, rfl⟩
    · exact captured _ _
  | fall =>
    rcases exec_fall s with ⟨-, e⟩ | ⟨-, -, e⟩ | ⟨-, -, e⟩ <;> rw [e] at ht <;> cases ht
    · exact .inr (rejected _)
    · exact .inr ⟨moved _, rfl, rfl⟩
    · exact captured _ _
  | staleRise v =>
    rcases exec_staleRise v s with ⟨-, e⟩ | ⟨-, e⟩ <;> rw [e] at ht <;> cases ht
    · exact .inr (rejected _)
    · exact captured s.echoLvl v
  | byte b => cases ht; exact .inr ⟨{ h with }, rfl, rfl⟩
  | ustick => cases ht; exact .inr ⟨{ h with }, rfl, rfl⟩
  | reset => exact absurd rfl hreset
  | trigBegin => cases hi
  | trigEnd => cases hi
  | arm n => cases hi
  | teardown => cases hi
  | quietEnd => cases hi

/-- A move other than RESET counts its TICK on, or completes the cycle. -/
theorem Measuring.moveStep (h : Measuring s) (hr : presents .reset m = false) (ht : moveStep m s = .next t) :
    t.cycleComplete = true ∨ CountedOn (countOf .tick [m]) s t := by
  rcases moveStep_cases ht with ⟨w, c, rfl, hd, rfl⟩ | ⟨w, i, u, rfl, hd, hu, rfl⟩ | ⟨i, u, -, hi, -, -⟩ | ⟨rfl, -, rfl⟩
  · rw [countOf_rejected hd]
    exact .inr ⟨{ h with }, rfl, rfl⟩
  · have hreset : i ≠ .reset := by
      rintro rfl
      simp [presents, hd] at hr
    have h' : Measuring { s with schedule := [] } := { h with }
    rw [countOf_stimulus hd]
    exact (h'.stimulus (decodePort_stimulus hd) hreset hu).imp_right fun hc =>
      ⟨{ hc.measuring with }, hc.tcmp, hc.tcnt⟩
  · simp [h.enabledOp_eq_none] at hi
  · exact .inr ⟨{ h with }, rfl, rfl⟩

/-- A run with the TICKs left to the compare value passes through a state that completes the cycle. -/
theorem Measuring.completes (h : Measuring s) (hr : Without .reset ms) (hrun : Runs ms s t)
    (hn : s.tcmp.toNat - s.tcnt.toNat ≤ countOf .tick ms) :
    ∃ pre post u, ms = pre ++ post ∧ Runs pre s u ∧ u.cycleComplete = true := by
  induction ms generalizing s with
  | nil =>
    have hahead : s.tcnt.toNat < s.tcmp.toNat := BitVec.lt_def.1 h.ahead
    have hnone : countOf .tick [] = 0 := rfl
    omega
  | cons m ms ih =>
    obtain ⟨u, hu, hrest⟩ := hrun
    obtain ⟨hm, hms⟩ := List.forall_mem_cons.1 hr
    rcases h.moveStep hm hu with hcomplete | hcounted
    · exact ⟨[m], ms, u, rfl, ⟨u, hu, rfl⟩, hcomplete⟩
    · have hsum : countOf .tick (m :: ms) = countOf .tick [m] + countOf .tick ms := countOf_append _ [m] ms
      have hleft : u.tcmp.toNat - u.tcnt.toNat ≤ countOf .tick ms := by
        rw [hcounted.tcmp, hcounted.tcnt]
        omega
      obtain ⟨pre, post, v, rfl, hpre, hcomplete⟩ := ih hcounted.measuring hms hrest hleft
      exact ⟨m :: pre, post, v, rfl, ⟨u, hu, hpre⟩, hcomplete⟩

/-- Settles O56: an awaiting cycle of a coupled state is a measurement in progress. -/
theorem cycleCompletesWithinItsTimeout : Obligations.CycleCompletesWithinItsTimeout :=
  fun _ _ _ hc ha hr hrun hn => (hc.measuring ha).completes hr hrun hn

end Sys2Proof.Safety
end

section
/-! The edge capture timer (R122 to R128): its conditions by the registers they read, one equation per case of TICK,
RISE, FALL and STALE_RISE, and the statements about these stimuli. -/

namespace Sys2Proof.Safety

open Sys2Proof.Machine

variable {s : State}

theorem matchesNext_iff (s : State) : matchesNext s = true ↔ s.cmpEn = true ∧ s.tcnt + 1 = s.tcmp := by
  simp [matchesNext, nextCount, add16]

theorem capturesRising_iff (s : State) : capturesRising s = true ↔ s.capEn = true ∧ s.capPol = .rising := by
  simp [capturesRising]

theorem capturesFalling_iff (s : State) : capturesFalling s = true ↔ s.capEn = true ∧ s.capPol = .falling := by
  simp [capturesFalling]

theorem staleAdmitted_iff (s : State) :
    staleAdmitted s = true
      ↔ s.params.staleEdgeCapture = true ∧ s.armedHigh = true ∧ s.capEn = true ∧ s.capPol = .rising := by
  simp [staleAdmitted, and_assoc]

theorem exec_tick_stopped (hr : s.tRun = false) : exec .tick s = .next s := by
  simpa [hr] using exec_tick s

theorem exec_tick_counted (hr : s.tRun = true) (hm : matchesNext s = false) :
    exec .tick s = .next { s with tcnt := nextCount s.tcnt } := by
  simpa [hr, hm] using exec_tick s

theorem exec_tick_matched (hr : s.tRun = true) (hm : matchesNext s = true) :
    exec .tick s = .next (timeoutHandler { s with tcnt := nextCount s.tcnt }) := by
  simpa [hr, hm] using exec_tick s

theorem exec_rise_rejected (hl : s.echoLvl = true) : exec .rise s = .next (reject .edge s) := by
  simpa [hl] using exec_rise s

theorem exec_rise_tracked (hl : s.echoLvl = false) (hc : capturesRising s = false) :
    exec .rise s = .next { s with echoLvl := true, armedHigh := false } := by
  simpa [hl, hc] using exec_rise s

theorem exec_rise_captured (hl : s.echoLvl = false) (hc : capturesRising s = true) :
    exec .rise s = .next (capture s.tcnt { s with echoLvl := true, armedHigh := false }) := by
  simpa [hl, hc] using exec_rise s

theorem exec_fall_rejected (hl : s.echoLvl = false) : exec .fall s = .next (reject .edge s) := by
  simpa [hl] using exec_fall s

theorem exec_fall_tracked (hl : s.echoLvl = true) (hc : capturesFalling s = false) :
    exec .fall s = .next { s with echoLvl := false, armedHigh := false } := by
  simpa [hl, hc] using exec_fall s

theorem exec_fall_captured (hl : s.echoLvl = true) (hc : capturesFalling s = true) :
    exec .fall s = .next (capture s.tcnt { s with echoLvl := false, armedHigh := false }) := by
  simpa [hl, hc] using exec_fall s

theorem exec_staleRise_captured (h : staleAdmitted s = true) (v : Ticks) :
    exec (.staleRise v) s = .next (capture v { s with armedHigh := false }) := by
  simpa [h] using exec_staleRise v s

theorem exec_staleRise_rejected (h : staleAdmitted s = false) (v : Ticks) :
    exec (.staleRise v) s = .next (reject .stale s) := by
  simpa [h] using exec_staleRise v s

/-- Settles O18, by the three cases of TICK: the timer stopped, no match, the match. -/
theorem tickCountsAndRaisesTheMatch : Obligations.TickCountsAndRaisesTheMatch := by
  refine ⟨portWord_of_stimulus (o := .tick) rfl,
    fun s => ⟨exec_tick_stopped, fun hrun hno => ?_, fun hrun hcmp hmatch => ?_⟩⟩
  · exact exec_tick_counted hrun (Bool.eq_false_iff.2 (mt (matchesNext_iff s).1 hno))
  · exact exec_tick_matched hrun ((matchesNext_iff s).2 ⟨hcmp, hmatch⟩)

/-- Settles O19, by the three cases of RISE: a high line, a rise not captured, a rise captured. -/
theorem riseIsCapturedOrOnlyTracked : Obligations.RiseIsCapturedOrOnlyTracked := by
  refine ⟨portWord_of_stimulus (o := .rise) rfl,
    fun s => ⟨exec_rise_rejected, fun hl hno => ?_, fun hl hen hpol => ?_⟩⟩
  · exact exec_rise_tracked hl (Bool.eq_false_iff.2 (mt (capturesRising_iff s).1 hno))
  · exact exec_rise_captured hl ((capturesRising_iff s).2 ⟨hen, hpol⟩)

/-- Settles O20, by the three cases of FALL: a low line, a fall not captured, a fall captured. -/
theorem fallIsCapturedOrOnlyTracked : Obligations.FallIsCapturedOrOnlyTracked := by
  refine ⟨portWord_of_stimulus (o := .fall) rfl,
    fun s => ⟨exec_fall_rejected, fun hl hno => ?_, fun hl hen hpol => ?_⟩⟩
  · exact exec_fall_tracked hl (Bool.eq_false_iff.2 (mt (capturesFalling_iff s).1 hno))
  · exact exec_fall_captured hl ((capturesFalling_iff s).2 ⟨hen, hpol⟩)

/-- Settles O21: a stale capture where it is admitted, a rejection elsewhere. -/
theorem staleRiseCapturesItsOperand : Obligations.StaleRiseCapturesItsOperand := by
  refine ⟨portWord_of_stimulus (o := .staleRise) rfl, fun s v => ⟨fun h => ?_, fun h => ?_⟩⟩
  · exact exec_staleRise_captured ((staleAdmitted_iff s).2 h) v
  · exact exec_staleRise_rejected (Bool.eq_false_iff.2 (mt (staleAdmitted_iff s).1 h)) v

/-- Settles O17: with the run bit clear a TICK is not counted, with the capture off an edge moves the level alone, and
with no line armed high STALE_RISE is not admitted. -/
theorem disarmStopsTheTimer : Obligations.DisarmStopsTheTimer := by
  intro s
  have hrising : capturesRising (disarm s) = false := rfl
  have hfalling : capturesFalling (disarm s) = false := rfl
  have hstale : staleAdmitted (disarm s) = false := by simp [staleAdmitted]
  exact ⟨rfl, exec_tick_stopped rfl, fun hl => exec_rise_tracked hl hrising, fun hl => exec_fall_tracked hl hfalling,
    exec_staleRise_rejected hstale⟩

end Sys2Proof.Safety
end

section
/-! The measurement state machine (R150 to R162): what the two handlers do in each state, what raises their interrupts,
and how a step moves the measurement registers. -/

namespace Sys2Proof.Safety

open Sys2Proof.Machine

variable {s t : State} {i : Instr} {m : Move}

theorem capture_of_awaitRise (hm : s.measState = .awaitRise) (v : Ticks) :
    capture v s = recordRise v { s with icr := v } := by
  simpa [hm, MeasState.awaiting] using capture_cases v s

theorem capture_of_awaitFall (hm : s.measState = .awaitFall) (v : Ticks) :
    capture v s = resolveFall v { s with icr := v } := by
  simpa [hm, MeasState.awaiting] using capture_cases v s

theorem timeoutHandler_of_awaiting (ha : s.measState.awaiting = true) : timeoutHandler s = resolveTimeout s := by
  simpa [ha] using timeoutHandler_cases s

theorem awaiting_eq_true_iff (m : MeasState) : m.awaiting = true ↔ m = .awaitRise ∨ m = .awaitFall := by
  cases m <;> simp [MeasState.awaiting]

theorem awaiting_eq_false_iff (m : MeasState) : m.awaiting = false ↔ m = .idle ∨ m = .resolved ∨ m = .timedOut := by
  cases m <;> simp [MeasState.awaiting]

/-- Settles O34: with the borrow or without it. -/
theorem distanceIsTheUnsignedDifference : Obligations.DistanceIsTheUnsignedDifference := by
  intro r f
  unfold tickDistance sub16
  constructor
  · intro h
    bv_omega
  · intro h
    bv_omega

/-- Settles O22: the counted captures are `recordRise` and `resolveFall`, after the latch of R127. -/
theorem captureIsHandledByState : Obligations.CaptureIsHandledByState := by
  refine fun s v => ⟨fun hm => capture_of_awaitRise hm v, fun hm => capture_of_awaitFall hm v, fun hm => ?_⟩
  have hidle : s.measState.awaiting = false := (awaiting_eq_false_iff _).2 hm
  rcases capture_cases v s with ⟨hrise, -⟩ | ⟨hfall, -⟩ | ⟨-, e⟩
  · simp [hrise, MeasState.awaiting] at hidle
  · simp [hfall, MeasState.awaiting] at hidle
  · exact e

/-- Settles O23: an awaiting cycle is resolved to zero, whose two bytes are zero. -/
theorem timeoutIsHandledByState : Obligations.TimeoutIsHandledByState := by
  refine fun s => ⟨fun hm => timeoutHandler_of_awaiting ((awaiting_eq_true_iff _).2 hm), fun hm => ?_⟩
  have hidle : s.measState.awaiting = false := (awaiting_eq_false_iff _).2 hm
  simpa [hidle] using timeoutHandler_cases s

/-- The timeout interrupt is the compare match of a TICK with the timer running (R301). -/
theorem raisedInterrupt_timeout_iff :
    raisedInterrupt i s = some .timeout ↔ i = .tick ∧ s.tRun = true ∧ matchesNext s = true := by
  cases i <;> simp [raisedInterrupt, matchesNext, and_assoc]

/-- A stimulus that raises the capture interrupt moves the line and captures (R125, R126, R128). -/
theorem exec_of_capture_raised (h : raisedInterrupt i s = some .capture) :
    ∃ v level, exec i s = .next (capture v { s with echoLvl := level, armedHigh := false }) := by
  cases i with
  | rise =>
    obtain ⟨hl, hc⟩ : s.echoLvl = false ∧ capturesRising s = true := by simpa [raisedInterrupt] using h
    exact ⟨_, _, exec_rise_captured hl hc⟩
  | fall =>
    obtain ⟨hl, hc⟩ : s.echoLvl = true ∧ capturesFalling s = true := by simpa [raisedInterrupt] using h
    exact ⟨_, _, exec_fall_captured hl hc⟩
  | staleRise v =>
    have hs : staleAdmitted s = true := by simpa [raisedInterrupt] using h
    exact ⟨v, s.echoLvl, exec_staleRise_captured hs v⟩
  | _ => simp [raisedInterrupt] at h

/-- A stimulus that raises an interrupt is admitted. -/
theorem admissionReject_of_raised {q : Interrupt} (h : raisedInterrupt i s = some q) : admissionReject i s = none := by
  cases i with
  | rise => simp_all [raisedInterrupt, admissionReject, riseReject]
  | fall => simp_all [raisedInterrupt, admissionReject, fallReject]
  | staleRise v => simp_all [raisedInterrupt, admissionReject, staleReject]
  | _ => rfl

/-- `t` is at the same place of the measurement as `s`. -/
structure KeepsMeasurement (s t : State) : Prop where
  measState : t.measState = s.measState
  edgePhase : t.edgePhase = s.edgePhase
  cycleComplete : t.cycleComplete = s.cycleComplete

/-- The operation `i` moves the measurement from `s` to `t` along a row of R150. -/
inductive MovesMeasurement (i : Instr) (s t : State) : Prop where
  | armed (op : i = .arm s.params.timeoutTicks) (phase : s.seqPhase = .arming)
      (measState : t.measState = .awaitRise) (edgePhase : t.edgePhase = 0) (cycleComplete : t.cycleComplete = false)
  | riseCounted (raised : raisedInterrupt i s = some .capture) (before : s.measState = .awaitRise)
      (measState : t.measState = .awaitFall) (edgePhase : t.edgePhase = nextEdgePhase s.edgePhase)
      (cycleComplete : t.cycleComplete = s.cycleComplete)
  | fallCounted (raised : raisedInterrupt i s = some .capture) (before : s.measState = .awaitFall)
      (measState : t.measState = .resolved) (edgePhase : t.edgePhase = nextEdgePhase s.edgePhase)
  | timedOut (op : i = .tick) (raised : raisedInterrupt .tick s = some .timeout)
      (before : s.measState.awaiting = true) (measState : t.measState = .timedOut) (edgePhase : t.edgePhase = 0)
      (cycleComplete : t.cycleComplete = true) (distance : t.distance = 0)
  | tornDown (op : i = .teardown) (complete : s.cycleComplete = true)
      (measState : t.measState = .idle) (edgePhase : t.edgePhase = 0) (cycleComplete : t.cycleComplete = false)
  | reset (op : i = .reset)
      (measState : t.measState = .idle) (edgePhase : t.edgePhase = 0) (cycleComplete : t.cycleComplete = false)

/-- The measurement reads neither the choices to come nor the trace. -/
theorem MovesMeasurement.recorded {r : List Move} (h : MovesMeasurement i { s with schedule := r } t)
    (tr : List TraceEvent) : MovesMeasurement i s { t with trace := tr } := by
  cases h with
  | armed op phase hm he hc => exact .armed op phase hm he hc
  | riseCounted raised before hm he hc => exact .riseCounted (raisedInterrupt_schedule i s r ▸ raised) before hm he hc
  | fallCounted raised before hm he => exact .fallCounted (raisedInterrupt_schedule i s r ▸ raised) before hm he
  | timedOut op raised before hm he hc hd => exact .timedOut op raised before hm he hc hd
  | tornDown op complete hm he hc => exact .tornDown op complete hm he hc
  | reset op hm he hc => exact .reset op hm he hc

/-- A capture counts the rise, counts the fall, or is discarded (R151). -/
theorem capture_moves_measurement (hi : raisedInterrupt i s = some .capture) (v : Ticks) (level : Bool) :
    let t := capture v { s with echoLvl := level, armedHigh := false }
    KeepsMeasurement s t ∨ MovesMeasurement i s t := by
  rcases capture_cases v { s with echoLvl := level, armedHigh := false } with ⟨hm, e⟩ | ⟨hm, e⟩ | ⟨-, e⟩ <;>
    simp only [e]
  · exact .inr (.riseCounted hi hm rfl rfl rfl)
  · exact .inr (.fallCounted hi hm rfl rfl)
  · exact .inl ⟨rfl, rfl, rfl⟩

/-- A TICK that does not raise the match, an edge that is not captured, BYTE and USTICK leave the measurement alone. -/
theorem exec_keeps_measurement (hi : i.opClass = .stimulus) (hreset : i ≠ .reset)
    (hcapture : raisedInterrupt i s ≠ some .capture) (htimeout : raisedInterrupt i s ≠ some .timeout)
    (ht : exec i s = .next t) : KeepsMeasurement s t := by
  cases i with
  | tick =>
    rcases exec_tick s with ⟨-, e⟩ | ⟨-, -, e⟩ | ⟨hrun, hmatch, -⟩
    · rw [e] at ht; cases ht; exact ⟨rfl, rfl, rfl⟩
    · rw [e] at ht; cases ht; exact ⟨rfl, rfl, rfl⟩
    · exact absurd (raisedInterrupt_timeout_iff.2 ⟨rfl, hrun, hmatch⟩) htimeout
  | rise =>
    rcases exec_rise s with ⟨-, e⟩ | ⟨-, -, e⟩ | ⟨hl, hc, -⟩
    · rw [e] at ht; cases ht; exact ⟨rfl, rfl, rfl⟩
    · rw [e] at ht; cases ht; exact ⟨rfl, rfl, rfl⟩
    · simp [raisedInterrupt, hl, hc] at hcapture
  | fall =>
    rcases exec_fall s with ⟨-, e⟩ | ⟨-, -, e⟩ | ⟨hl, hc, -⟩
    · rw [e] at ht; cases ht; exact ⟨rfl, rfl, rfl⟩
    · rw [e] at ht; cases ht; exact ⟨rfl, rfl, rfl⟩
    · simp [raisedInterrupt, hl, hc] at hcapture
  | staleRise v =>
    rcases exec_staleRise v s with ⟨-, e⟩ | ⟨hs, -⟩
    · rw [e] at ht; cases ht; exact ⟨rfl, rfl, rfl⟩
    · simp [raisedInterrupt, hs] at hcapture
  | byte b => cases ht; exact ⟨rfl, rfl, rfl⟩
  | ustick => cases ht; exact ⟨rfl, rfl, rfl⟩
  | reset => exact absurd rfl hreset
  | trigBegin => cases hi
  | trigEnd => cases hi
  | arm n => cases hi
  | teardown => cases hi
  | quietEnd => cases hi

/-- A stimulus moves the measurement as RESET, by a capture, or by the timeout. -/
theorem stimulus_measurement (hi : i.opClass = .stimulus) (ht : exec i s = .next t) :
    KeepsMeasurement s t ∨ MovesMeasurement i s t := by
  by_cases hreset : i = .reset
  · subst hreset
    cases ht
    exact .inr (.reset rfl rfl rfl rfl)
  by_cases hcapture : raisedInterrupt i s = some .capture
  · obtain ⟨v, level, e⟩ := exec_of_capture_raised hcapture
    rw [e] at ht
    cases ht
    exact capture_moves_measurement hcapture v level
  by_cases htimeout : raisedInterrupt i s = some .timeout
  · obtain ⟨rfl, hrun, hmatch⟩ := raisedInterrupt_timeout_iff.1 htimeout
    rw [exec_tick_matched hrun hmatch] at ht
    cases ht
    rcases timeoutHandler_cases { s with tcnt := nextCount s.tcnt } with ⟨ha, e⟩ | ⟨-, e⟩ <;> rw [e]
    · exact .inr (.timedOut rfl htimeout ha rfl rfl rfl rfl)
    · exact .inl ⟨rfl, rfl, rfl⟩
  exact .inl (exec_keeps_measurement hi hreset hcapture htimeout ht)

/-- Of the sequencer's operations ARM and TEARDOWN move the measurement. -/
theorem internal_measurement (hi : enabledOp s = some i) (ht : exec i s = .next t) :
    KeepsMeasurement s t ∨ MovesMeasurement i s t := by
  rcases enabledOp_some hi with ⟨rfl, -⟩ | ⟨rfl, -⟩ | ⟨rfl, hp⟩ | ⟨rfl, -, hc⟩ | ⟨rfl, -⟩ <;>
    obtain ⟨-, rfl⟩ := whenEnabled_next.1 ht
  · exact .inl ⟨rfl, rfl, rfl⟩
  · exact .inl ⟨rfl, rfl, rfl⟩
  · exact .inr (.armed rfl hp rfl rfl rfl)
  · exact .inr (.tornDown rfl hc rfl rfl rfl)
  · exact .inl ⟨rfl, rfl, rfl⟩

/-- The choice taken off the schedule is the one change `nextMove` makes. -/
theorem nextMove_eq (s : State) : ∃ r, (nextMove s).2 = { s with schedule := r } := by
  unfold nextMove
  split
  · exact ⟨_, rfl⟩
  · exact ⟨s.schedule, rfl⟩

/-- A stimulus that moves the measurement is performed: it is RESET, or it raises an interrupt. -/
theorem MovesMeasurement.performed_stimulus (h : MovesMeasurement i s t) (hi : i.opClass = .stimulus) {w : Word}
    {rest : List Move} (hs : s.schedule = .stimulus w :: rest) (hd : decodePort w = .ok i) : performed s = some i := by
  have hadmitted : admissionReject i s = none := by
    cases h with
    | armed op => subst op; cases hi
    | riseCounted raised => exact admissionReject_of_raised raised
    | fallCounted raised => exact admissionReject_of_raised raised
    | timedOut op => subst op; rfl
    | tornDown op => subst op; cases hi
    | reset op => subst op; rfl
  simp [performed, hs, hd, hadmitted]

/-- A step keeps the measurement where it is, or performs an operation that moves it. -/
theorem step_measurement (ht : step s = .next t) :
    KeepsMeasurement s t ∨ ∃ i, performed s = some i ∧ MovesMeasurement i s t := by
  rcases step_cases ht with ⟨w, rest, c, -, -, rfl⟩ | ⟨w, rest, i, u, hs, hd, hu, rfl⟩ | ⟨i, u, hn, hi, hu, rfl⟩
    | ⟨-, -, rfl⟩
  · exact .inl ⟨rfl, rfl, rfl⟩
  · have hi := decodePort_stimulus hd
    rcases stimulus_measurement hi hu with hkept | hmoved
    · exact .inl { hkept with }
    · have hstep := hmoved.recorded (.stimulus w (stimulusOutcome w { s with schedule := rest }) :: u.trace)
      exact .inr ⟨i, hstep.performed_stimulus hi hs hd, hstep⟩
  · obtain ⟨r, hr⟩ := nextMove_eq s
    rw [hr] at hu
    rcases internal_measurement (s := { s with schedule := r }) hi hu with hkept | hmoved
    · exact .inl { hkept with }
    · exact .inr ⟨i, (performed_of_sequencer hn).trans hi, hmoved.recorded _⟩
  · obtain ⟨r, hr⟩ := nextMove_eq s
    rw [hr]
    exact .inl ⟨rfl, rfl, rfl⟩

/-- A complete cycle is in a terminal state (R53). -/
theorem Coupled.terminal_of_complete (h : Coupled s) (hc : s.cycleComplete = true) :
    s.measState = .resolved ∨ s.measState = .timedOut := by
  obtain ⟨-, -, -, hcomplete⟩ := h.edge
  exact hcomplete.1 hc

/-- Settles O44, by the operation that moves the measurement; the couplings name the state ARM and TEARDOWN find. -/
theorem measStateFollowsTheDiagram : Obligations.MeasStateFollowsTheDiagram := by
  intro s t hc ht
  rcases step_measurement ht with hkept | ⟨i, hi, hmoved⟩
  · exact .inl hkept.measState
  right
  cases hmoved with
  | armed op phase hm =>
    exact .inl ⟨hc.idle_of_ne_wait (by simp [phase]), hm, op ▸ hi⟩
  | riseCounted raised before hm => exact .inr (.inl ⟨before, hm, i, hi, raised⟩)
  | fallCounted raised before hm => exact .inr (.inr (.inl ⟨before, hm, i, hi, raised⟩))
  | timedOut op raised before hm => exact .inr (.inr (.inr (.inl ⟨before, hm, op ▸ hi, raised⟩)))
  | tornDown op complete hm =>
    have hterminal : s.measState.terminal = true := by
      rcases hc.terminal_of_complete complete with h | h <;> simp [h, MeasState.terminal]
    exact .inr (.inr (.inr (.inr (.inl ⟨hterminal, hm, op ▸ hi⟩))))
  | reset op hm => exact .inr (.inr (.inr (.inr (.inr ⟨hm, op ▸ hi⟩))))

/-- Settles O45: the rise is counted from 0 and the fall from 1, by the couplings of R53. -/
theorem edgePhaseNeverSkips : Obligations.EdgePhaseNeverSkips := by
  intro s t hc ht
  rcases step_measurement ht with hkept | ⟨i, -, hmoved⟩
  · exact .inl hkept.edgePhase
  right
  cases hmoved with
  | riseCounted _ before _ he =>
    have hzero : s.edgePhase = 0 := hc.edgePhase_of_awaitRise before
    exact .inl ⟨hzero, by rw [he, hzero]; rfl⟩
  | fallCounted _ before _ he =>
    obtain ⟨hone_iff, -⟩ := hc.edge
    have hone : s.edgePhase = 1 := hone_iff.2 before
    exact .inr (.inl ⟨hone, by rw [he, hone]; rfl⟩)
  | armed _ _ _ he => exact .inr (.inr he)
  | timedOut _ _ _ _ he => exact .inr (.inr he)
  | tornDown _ _ _ he => exact .inr (.inr he)
  | reset _ _ he => exact .inr (.inr he)

/-- The interrupt of `i` calls Publish: a timeout of an awaiting cycle, or a capture in AwaitFall (R153, R155). -/
def PublishingInterrupt (i : Instr) (s : State) : Prop :=
  (raisedInterrupt i s = some .timeout ∧ s.measState.awaiting = true)
    ∨ (raisedInterrupt i s = some .capture ∧ s.measState = .awaitFall)

theorem publishes_iff :
    publishes m s = true ↔ ∃ w i, m = .stimulus w ∧ decodePort w = .ok i ∧ PublishingInterrupt i s := by
  cases m with
  | sequencer => simp [publishes]
  | stimulus w =>
    cases hd : decodePort w with
    | error c => simp [publishes, hd]
    | ok i =>
      cases hr : raisedInterrupt i s with
      | none => simp [publishes, hd, PublishingInterrupt, hr]
      | some q => cases q <;> simp [publishes, hd, PublishingInterrupt, hr]

/-- Publish completes the cycle and leaves the position at HI and the latches holding the Distance (R160). -/
theorem publish_completes (d : Ticks) (s : State) :
    (publish d s).cycleComplete = true ∧ (publish d s).byteSel = .hi
      ∧ (publish d s).distance = pair (publish d s).pubHi (publish d s).pubLo :=
  ⟨rfl, rfl, (pair_bytes d).symm⟩

/-- A stimulus whose interrupt publishes ends in the state Publish leaves. -/
theorem exec_of_publishingInterrupt (h : PublishingInterrupt i s) : ∃ d u, exec i s = .next (publish d u) := by
  rcases h with ⟨hraised, ha⟩ | ⟨hraised, hm⟩
  · obtain ⟨rfl, hrun, hmatch⟩ := raisedInterrupt_timeout_iff.1 hraised
    have e := timeoutHandler_of_awaiting (s := { s with tcnt := nextCount s.tcnt }) ha
    exact ⟨_, _, (exec_tick_matched hrun hmatch).trans (congrArg _ e)⟩
  · obtain ⟨v, level, hexec⟩ := exec_of_capture_raised hraised
    have e := capture_of_awaitFall (s := { s with echoLvl := level, armedHigh := false }) hm v
    exact ⟨_, _, hexec.trans (congrArg _ e)⟩

/-- Settles O47: in a terminal state neither interrupt publishes, and a publishing stimulus ends with Publish. -/
theorem publishHappensOncePerCycle : Obligations.PublishHappensOncePerCycle := by
  refine ⟨fun m s hc hcomplete => ?_, fun m s t ht hp => ?_⟩
  · rw [Bool.eq_false_iff, ne_eq, publishes_iff]
    rintro ⟨-, i, -, -, ⟨-, ha⟩ | ⟨-, hm⟩⟩ <;> rcases hc.terminal_of_complete hcomplete with h | h
    · simp [h, MeasState.awaiting] at ha
    · simp [h, MeasState.awaiting] at ha
    · simp [h] at hm
    · simp [h] at hm
  · obtain ⟨w, i, rfl, hd, hpublishing⟩ := publishes_iff.1 hp
    have hpublishing' : PublishingInterrupt i { s with schedule := [] } := by
      rwa [PublishingInterrupt, raisedInterrupt_schedule]
    obtain ⟨d, u, e⟩ := exec_of_publishingInterrupt hpublishing'
    have hstep := step_stimulus (s := { s with schedule := [.stimulus w] }) rfl hd e
    obtain rfl := Host.Outcome.next.inj (ht.symm.trans hstep)
    exact publish_completes d u

end Sys2Proof.Safety
end

section
/-! The timeout of a cycle that no falling capture resolves (R124, R163): the counter holds the number of TICKs since
ARM until the TICK that makes it the compare value, which times the cycle out. -/

namespace Sys2Proof.Safety

open Sys2Proof.Machine

variable {s t u : State} {m : Move} {ms : List Move} {n k : Nat}

/-- No falling capture resolves the cycle over the moves of `ms` from `s`. -/
def NeverResolves (ms : List Move) (s : State) : Prop :=
  ∀ pre post u, ms = pre ++ post → Runs pre s u → u.measState ≠ .resolved

/-- The first moves of a run that never resolves do not resolve either. -/
theorem NeverResolves.left {a b : List Move} (h : NeverResolves (a ++ b) s) : NeverResolves a s := by
  rintro pre post v rfl hpre
  exact h pre (post ++ b) v (List.append_assoc _ _ _) hpre

/-- From a state such a run reaches, its remaining moves do not resolve either. -/
theorem NeverResolves.right {a b : List Move} (h : NeverResolves (a ++ b) s) (hrun : Runs a s u) :
    NeverResolves b u := by
  rintro pre post v rfl hpre
  exact h (a ++ pre) post v (List.append_assoc _ _ _).symm (runs_append.2 ⟨u, hrun, hpre⟩)

/-- A run that never resolves does not end in Resolved. -/
theorem NeverResolves.last (h : NeverResolves ms s) (hrun : Runs ms s t) : t.measState ≠ .resolved :=
  h ms [] t (List.append_nil ms).symm hrun

theorem runs_singleton (ht : moveStep m s = .next t) : Runs [m] s t := ⟨t, ht, rfl⟩

theorem CountedOn.trans (first : CountedOn n s t) (later : CountedOn k t u) : CountedOn (n + k) s u where
  measuring := later.measuring
  tcmp := later.tcmp.trans first.tcmp
  tcnt := by rw [later.tcnt, first.tcnt, Nat.add_assoc]

/-- The cycle has timed out, with Distance 0, and waits for TEARDOWN (R155). -/
structure TimedOut (t : State) : Prop where
  measState : t.measState = .timedOut
  distance : t.distance = 0
  edgePhase : t.edgePhase = 0
  cycleComplete : t.cycleComplete = true
  phase : t.seqPhase = .wait

theorem TimedOut.enabledOp_eq_teardown (h : TimedOut t) : enabledOp t = some .teardown := by
  simp [enabledOp, h.phase, h.cycleComplete]

/-- Where no internal operation is enabled, the operation a move performs is the stimulus it presents. -/
theorem presents_of_performed {i : Instr} (hnone : enabledOp s = none)
    (hi : performed { s with schedule := [m] } = some i) : presents i m = true := by
  cases m with
  | sequencer =>
    have henabled : enabledOp s = some i := hi
    simp [hnone] at henabled
  | stimulus w =>
    cases hd : decodePort w with
    | error c => simp [performed, hd] at hi
    | ok j =>
      obtain ⟨-, rfl⟩ : _ ∧ j = i := by simpa [performed, hd] using hi
      simp [presents, hd]

/-- A move that completes the measurement without resolving it is the TICK of the compare match. -/
theorem Measuring.timedOut (h : Measuring s) (ht : Safety.moveStep m s = .next t) (hcomplete : t.cycleComplete = true)
    (hunresolved : t.measState ≠ .resolved) :
    presents .tick m = true ∧ nextCount s.tcnt = s.tcmp ∧ TimedOut t := by
  rcases step_measurement ht with hkept | ⟨i, hi, hmoved⟩
  · simp [hkept.cycleComplete, h.incomplete] at hcomplete
  cases hmoved with
  | armed _ _ _ _ hc => simp [hc] at hcomplete
  | riseCounted _ _ _ _ hc => simp [hc, h.incomplete] at hcomplete
  | fallCounted _ _ hm => exact absurd hm hunresolved
  | tornDown _ _ _ _ hc => simp [hc] at hcomplete
  | reset _ _ _ hc => simp [hc] at hcomplete
  | timedOut op raised _ hm he hc hd =>
    subst op
    obtain ⟨-, -, hmatch⟩ := raisedInterrupt_timeout_iff.1 raised
    have hphase : t.seqPhase = s.seqPhase := by
      simpa [hi] using phaseMovesRoundItsCycle _ _ ht
    exact ⟨presents_of_performed h.enabledOp_eq_none hi, ((matchesNext_iff _).1 hmatch).2,
      hm, hd, he, hc, hphase.trans h.phase⟩

/-- A move that does not resolve the measurement counts its TICK on, or is the TICK that times it out. -/
theorem Measuring.moveStep_unresolved (h : Measuring s) (hr : presents .reset m = false)
    (ht : Safety.moveStep m s = .next t) (hunresolved : t.measState ≠ .resolved) :
    CountedOn (countOf .tick [m]) s t ∨ (presents .tick m = true ∧ nextCount s.tcnt = s.tcmp ∧ TimedOut t) := by
  rcases h.moveStep hr ht with hcomplete | hcounted
  · exact .inr (h.timedOut ht hcomplete hunresolved)
  · exact .inl hcounted

theorem countOf_singleton_of_presents {i : Instr} (hm : presents i m = true) : countOf i [m] = 1 := by
  simp [countOf, hm]

/-- A run with fewer TICKs than are left to the compare value counts each of them on. -/
theorem Measuring.runs_countedOn (h : Measuring s) (hr : Without .reset ms) (hrun : Runs ms s t)
    (hnever : NeverResolves ms s) (hn : s.tcnt.toNat + countOf .tick ms < s.tcmp.toNat) :
    CountedOn (countOf .tick ms) s t := by
  induction ms generalizing s with
  | nil =>
    obtain rfl : s = t := hrun
    exact ⟨h, rfl, rfl⟩
  | cons m ms ih =>
    obtain ⟨u, hu, hrest⟩ := hrun
    obtain ⟨hm, hms⟩ := List.forall_mem_cons.1 hr
    have hfirst : NeverResolves [m] s := NeverResolves.left (b := ms) hnever
    have hsum : countOf .tick (m :: ms) = countOf .tick [m] + countOf .tick ms := countOf_append _ [m] ms
    rw [hsum] at hn ⊢
    have hu' : Runs [m] s u := runs_singleton hu
    rcases h.moveStep_unresolved hm hu (hfirst.last hu') with first | ⟨htick, hmatch, -⟩
    · have hleft : u.tcnt.toNat + countOf .tick ms < u.tcmp.toNat := by
        rw [first.tcnt, first.tcmp]
        omega
      exact first.trans (ih first.measuring hms hrest (hnever.right (a := [m]) hu') hleft)
    · have hone := countOf_singleton_of_presents htick
      have hcount := nextCount_toNat_of_lt h.ahead
      rw [hmatch] at hcount
      omega

/-- A run whose last move is the TICK that makes the counter the compare value times the measurement out. -/
theorem Measuring.runs_timedOut (h : Measuring s) (hr : Without .reset (ms ++ [m])) (hrun : Runs (ms ++ [m]) s t)
    (hnever : NeverResolves (ms ++ [m]) s) (hm : presents .tick m = true)
    (hn : s.tcnt.toNat + countOf .tick (ms ++ [m]) = s.tcmp.toNat) : TimedOut t := by
  obtain ⟨hms, hlast⟩ := List.forall_mem_append.1 hr
  obtain ⟨u, hu, v, hv, rfl⟩ := runs_append.1 hrun
  have hone := countOf_singleton_of_presents hm
  rw [countOf_append, hone] at hn
  have before := h.runs_countedOn hms hu hnever.left (by omega)
  rcases before.measuring.moveStep_unresolved (hlast m (List.mem_singleton_self m)) hv (hnever.last hrun)
    with hcounted | ⟨-, -, htimedOut⟩
  · have hahead := BitVec.lt_def.1 hcounted.measuring.ahead
    rw [hcounted.tcnt, hcounted.tcmp, before.tcnt, before.tcmp, hone] at hahead
    omega
  · exact htimedOut

/-- ARM leaves a measurement in progress at count 0, where the compare value is not zero (R121). -/
theorem measuring_of_arm {c : Ticks} (ht : exec (.arm c) s = .next t) (hc : 0 < c.toNat) :
    Measuring t ∧ t.tcnt = 0 ∧ t.tcmp = c := by
  obtain ⟨-, rfl⟩ := whenEnabled_next.1 ht
  exact ⟨⟨rfl, rfl, rfl, rfl, rfl, BitVec.lt_def.2 hc⟩, rfl, rfl⟩

/-- Settles O55: in both clauses the timeout is not zero, so ARM starts a measurement at count 0. -/
theorem timeoutComesAtTheCompareTick : Obligations.TimeoutComesAtTheCompareTick := by
  intro s s₀ t ms harm hr hrun hnever
  refine ⟨fun hn => ?_, ?_⟩
  · obtain ⟨hs₀, hzero, hcompare⟩ := measuring_of_arm harm (by omega)
    have hcounted := hs₀.runs_countedOn hr hrun hnever (by simpa [hzero, hcompare] using hn)
    exact ⟨hcounted.measuring.awaiting, by simpa [hzero] using hcounted.tcnt, hcounted.measuring.incomplete⟩
  · rintro m ms rfl hm hn
    have hone := countOf_singleton_of_presents hm
    have hsum := countOf_append .tick ms [m]
    obtain ⟨hs₀, hzero, hcompare⟩ := measuring_of_arm harm (by omega)
    have htimedOut := hs₀.runs_timedOut hr hrun hnever hm (by simpa [hzero, hcompare] using hn)
    exact ⟨htimedOut.measState, htimedOut.distance, htimedOut.edgePhase, htimedOut.cycleComplete,
      htimedOut.enabledOp_eq_teardown⟩

end Sys2Proof.Safety
end

section
/-! The publisher's serving (R181 to R188): the BYTE word and its two positions, the pair a Publish leaves as the first
two bytes served after it, and the 0x00 served after RESET. -/

namespace Sys2Proof.Safety

open Sys2Proof.Machine

variable {s t : State} {m : Move}

/-- At position HI a BYTE serves `PUB_HI` and moves to LO (R181). -/
theorem exec_byte_hi (hsel : s.byteSel = .hi) (mosi : Byte) :
    exec (.byte mosi) s = .next { s with byteSel := .lo, lastTx := s.pubHi } := by
  rw [exec_byte, byteRequestHandler, servedByte, hsel]
  rfl

/-- At position LO a BYTE serves `PUB_LO` and moves to HI (R181). -/
theorem exec_byte_lo (hsel : s.byteSel = .lo) (mosi : Byte) :
    exec (.byte mosi) s = .next { s with byteSel := .hi, lastTx := s.pubLo } := by
  rw [exec_byte, byteRequestHandler, servedByte, hsel]
  rfl

/-- Settles O25: the word of BYTE, and the byte served at each position. -/
theorem byteServesAndToggles : Obligations.ByteServesAndToggles :=
  ⟨portWord_of_stimulus (o := .byte) rfl, fun _ mosi => ⟨fun h => exec_byte_hi h mosi, fun h => exec_byte_lo h mosi⟩⟩

/-- Settles O30: the views do not read the schedule and the trace, and the launch state serves from position HI. -/
theorem resetLeavesTheLaunchState : Obligations.ResetLeavesTheLaunchState := by
  intro s
  exact ⟨_, exec_reset s, rfl, (enabledOp_trigBegin_iff _).2 rfl, rfl, rfl, status_afterReset s.params s.echoLvl,
    tctrl_afterReset s.params s.echoLvl, exec_byte_hi rfl⟩

theorem highByte_pair (first second : Byte) : highByte (pair first second) = first :=
  BitVec.extractLsb'_append_eq_left

theorem lowByte_pair (first second : Byte) : lowByte (pair first second) = second :=
  BitVec.extractLsb'_append_eq_right

/-- A move that publishes leaves the position at HI and the two bytes of its Distance in the latches (R160). -/
theorem moveStep_publishes (ht : moveStep m s = .next t) (hp : publishes m s = true) :
    t.byteSel = .hi ∧ t.pubHi = highByte t.distance ∧ t.pubLo = lowByte t.distance := by
  obtain ⟨-, hsel, hpair⟩ := publishHappensOncePerCycle.2 m s t ht hp
  exact ⟨hsel, by rw [hpair, highByte_pair], by rw [hpair, lowByte_pair]⟩

/-- Two bytes or more from position HI begin with the whole pair (R182). -/
theorem alternation_hi_of_two_le (hi lo : Byte) {n : Nat} (hn : 2 ≤ n) :
    alternation hi lo .hi n = hi :: lo :: alternation hi lo .hi (n - 2) := by
  obtain ⟨k, rfl⟩ := Nat.exists_eq_add_of_le' hn
  rfl

/-- Settles O58: the bytes after the Publish alternate from position HI over the two bytes of its Distance. -/
theorem everyPublishedValueIsServed : Obligations.EveryPublishedValueIsServed := by
  intro m ms s u t hu hp hrun hn
  obtain ⟨hsel, hhi, hlo⟩ := moveStep_publishes hu hp
  obtain ⟨new, htrace, hbytes⟩ := runsUnpublished_emits hrun
  rw [hsel, alternation_hi_of_two_le _ _ hn, hhi, hlo] at hbytes
  exact ⟨new, _, htrace, hbytes⟩

end Sys2Proof.Safety
end

section
/-! The cycle sequencer (R200 to R206): the rows of the enabling table, the internal operations where their row holds
and where it does not, and the phase under the stimuli. -/

namespace Sys2Proof.Safety

open Sys2Proof.Machine

variable {s t : State} {i : Instr}

theorem trigBeginEnabled_iff (s : State) : trigBeginEnabled s = true ↔ s.seqPhase = .idle := by
  simp [trigBeginEnabled]

theorem trigEndEnabled_iff (s : State) : trigEndEnabled s = true ↔ s.seqPhase = .pulse ∧ s.seqDelay = 0 := by
  simp [trigEndEnabled]

theorem armEnabled_iff (s : State) : armEnabled s = true ↔ s.seqPhase = .arming := by
  simp [armEnabled]

theorem teardownEnabled_iff (s : State) : teardownEnabled s = true ↔ s.seqPhase = .wait ∧ s.cycleComplete = true := by
  simp [teardownEnabled]

theorem quietEndEnabled_iff (s : State) : quietEndEnabled s = true ↔ s.seqPhase = .quiet ∧ s.seqDelay = 0 := by
  simp [quietEndEnabled]

/-- TEARDOWN is the enabled operation exactly in WAIT with the cycle complete (R203). -/
theorem enabledOp_teardown_iff (s : State) :
    enabledOp s = some .teardown ↔ s.seqPhase = .wait ∧ s.cycleComplete = true := by
  constructor
  · intro h
    simpa using enabledOp_some h
  · rintro ⟨hp, hc⟩
    simp [enabledOp, hp, hc]

/-- The three rows of R203 with no operation: the delay of PULSE or QUIET is running, or the cycle in WAIT is not
complete. -/
theorem enabledOp_eq_none_iff (s : State) :
    enabledOp s = none ↔ (Timed s ∧ s.seqDelay ≠ 0) ∨ (s.seqPhase = .wait ∧ s.cycleComplete = false) := by
  cases hp : s.seqPhase <;> simp [enabledOp, Timed, hp]

/-- An internal operation of the configuration that takes a step is the one R203 enables. -/
theorem enabledOp_of_exec_next (hi : i.opClass = .internal) (hwf : i.wf s.params = true) (ht : exec i s = .next t) :
    enabledOp s = some i := by
  cases i with
  | trigBegin => exact (enabledOp_trigBegin_iff s).2 ((trigBeginEnabled_iff s).1 (whenEnabled_next.1 ht).1)
  | trigEnd => exact (enabledOp_trigEnd_iff s).2 ((trigEndEnabled_iff s).1 (whenEnabled_next.1 ht).1)
  | arm n =>
    obtain rfl : n = s.params.timeoutTicks := by simpa [Instr.wf] using hwf
    exact (enabledOp_arm_iff s).2 ((armEnabled_iff s).1 (whenEnabled_next.1 ht).1)
  | teardown => exact (enabledOp_teardown_iff s).2 ((teardownEnabled_iff s).1 (whenEnabled_next.1 ht).1)
  | quietEnd => exact (enabledOp_quietEnd_iff s).2 ((quietEndEnabled_iff s).1 (whenEnabled_next.1 ht).1)
  | _ => cases hi

/-- Settles O11: the eight rows, and an operation that takes a step exactly where its row enables it. -/
theorem enabledOperationFollowsTheTable : Obligations.EnabledOperationFollowsTheTable := by
  intro s
  refine ⟨(enabledOp_trigBegin_iff s).2, fun hp hd => (enabledOp_trigEnd_iff s).2 ⟨hp, hd⟩,
    fun hp hd => (enabledOp_eq_none_iff s).2 (.inl ⟨.inl hp, hd⟩), (enabledOp_arm_iff s).2,
    fun hp hc => (enabledOp_teardown_iff s).2 ⟨hp, hc⟩, fun hp hc => (enabledOp_eq_none_iff s).2 (.inr ⟨hp, hc⟩),
    fun hp hd => (enabledOp_quietEnd_iff s).2 ⟨hp, hd⟩,
    fun hp hd => (enabledOp_eq_none_iff s).2 (.inl ⟨.inr hp, hd⟩), fun i hi hwf => ⟨?steps, exec_enabledOp_next⟩⟩
  case steps =>
    rintro ⟨t, ht⟩
    exact enabledOp_of_exec_next hi hwf ht

/-- An internal operation whose row does not hold takes no step (log entry 5). -/
theorem whenEnabled_refused {b : Bool} {mn : String} {a : State} (h : ¬ b = true) :
    whenEnabled b mn a = .refused (.notEnabled mn) :=
  if_neg h

/-- Settles O12: each meaning asks its row of R203 first. -/
theorem disabledOperationIsRefused : Obligations.DisabledOperationIsRefused := fun s =>
  ⟨fun h => whenEnabled_refused (mt (trigBeginEnabled_iff s).1 h),
    fun h => whenEnabled_refused (mt (trigEndEnabled_iff s).1 h),
    fun h _ => whenEnabled_refused (mt (armEnabled_iff s).1 h),
    fun h => whenEnabled_refused (mt (teardownEnabled_iff s).1 h),
    fun h => whenEnabled_refused (mt (quietEndEnabled_iff s).1 h)⟩

/-- Settles O27: the word's fields, the row of R203, and the writes of R201. -/
theorem teardownDisarmsAndStartsTheQuietPeriod : Obligations.TeardownDisarmsAndStartsTheQuietPeriod := by
  refine ⟨traceWord_encode (i := .teardown) rfl, enabledOp_teardown_iff, fun s hp hc => ?_⟩
  exact whenEnabled_next.2 ⟨(teardownEnabled_iff s).2 ⟨hp, hc⟩, rfl⟩

/-- Settles O28: the word's fields, the row of R203, and the one write of R202. -/
theorem quietEndReturnsToIdle : Obligations.QuietEndReturnsToIdle := by
  refine ⟨traceWord_encode (i := .quietEnd) rfl, enabledOp_quietEnd_iff, fun s hp hd => ?_⟩
  exact whenEnabled_next.2 ⟨(quietEndEnabled_iff s).2 ⟨hp, hd⟩, rfl⟩

/-- Settles O42: a rejected word writes the fault registers, and a stimulus other than RESET leaves the phase. -/
theorem onlyResetCancelsTheCycle : Obligations.OnlyResetCancelsTheCycle := by
  intro s t w rest hs hreset ht
  cases hd : decodePort w with
  | error c =>
    obtain rfl := Host.Outcome.next.inj (ht.symm.trans (step_rejected hs hd))
    rfl
  | ok i =>
    have hi : i.opClass = .stimulus := decodePort_stimulus hd
    have hne : i ≠ .reset := fun h => hreset (h ▸ hd)
    obtain ⟨u, hu⟩ := exec_stimulus_next hi { s with schedule := rest }
    obtain rfl := Host.Outcome.next.inj (ht.symm.trans (step_stimulus hs hd hu))
    obtain ⟨hphase, -⟩ := stimulus_frame hi hne hu
    exact hphase

end Sys2Proof.Safety
end

section
/-! A falling edge and a compare match on the same count (R306): the step that comes first ends the cycle, and the
handler of the second discards its interrupt (R154, R156). -/

namespace Sys2Proof.Safety

open Sys2Proof.Machine

variable {s t : State}

/-- A move that presents the word of a stimulus runs the stimulus and records it. -/
theorem moveStep_stimulus (i : Instr) (hi : i.opClass = .stimulus) (ht : exec i { s with schedule := [] } = .next t) :
    moveStep (.stimulus (encode i)) s
      = .next { t with
          trace := .stimulus (encode i) (stimulusOutcome (encode i) { s with schedule := [] }) :: t.trace } :=
  step_stimulus (s := { s with schedule := [.stimulus (encode i)] }) rfl (decodePort_encode hi) ht

/-- A falling edge the timer captures in AwaitFall resolves the cycle (R126, R153). -/
theorem exec_fall_resolves (hm : s.measState = .awaitFall) (hcap : s.capEn = true) (hpol : s.capPol = .falling)
    (hl : s.echoLvl = true) :
    exec .fall s
      = .next (resolveFall s.tcnt { s with echoLvl := false, armedHigh := false, icr := s.tcnt }) := by
  rw [exec_fall_captured hl ((capturesFalling_iff s).2 ⟨hcap, hpol⟩)]
  exact congrArg _ (capture_of_awaitFall (s := { s with echoLvl := false, armedHigh := false }) hm _)

/-- A falling edge the timer captures in a terminal state is kept in `ICR` alone (R127, R154). -/
theorem exec_fall_discarded (hm : s.measState = .resolved ∨ s.measState = .timedOut) (hcap : s.capEn = true)
    (hpol : s.capPol = .falling) (hl : s.echoLvl = true) :
    exec .fall s = .next { s with echoLvl := false, armedHigh := false, icr := s.tcnt } := by
  obtain ⟨-, -, hdiscard⟩ := captureIsHandledByState { s with echoLvl := false, armedHigh := false } s.tcnt
  rw [exec_fall_captured hl ((capturesFalling_iff s).2 ⟨hcap, hpol⟩)]
  exact congrArg _ (hdiscard (.inr hm))

/-- The compare match in an awaiting state times the cycle out (R123, R155). -/
theorem exec_tick_timesOut (ha : s.measState.awaiting = true) (hrun : s.tRun = true) (hmatch : matchesNext s = true) :
    exec .tick s = .next (resolveTimeout { s with tcnt := nextCount s.tcnt }) := by
  rw [exec_tick_matched hrun hmatch]
  exact congrArg _ (timeoutHandler_of_awaiting (s := { s with tcnt := nextCount s.tcnt }) ha)

/-- The compare match in a terminal state is counted alone (R156). -/
theorem exec_tick_discarded (hm : s.measState = .resolved ∨ s.measState = .timedOut) (hrun : s.tRun = true)
    (hmatch : matchesNext s = true) : exec .tick s = .next { s with tcnt := nextCount s.tcnt } := by
  obtain ⟨-, hdiscard⟩ := timeoutIsHandledByState { s with tcnt := nextCount s.tcnt }
  rw [exec_tick_matched hrun hmatch]
  exact congrArg _ (hdiscard (.inr hm))

/-- Settles O51: the first step of either order ends the cycle, and the second finds it in a terminal state. -/
theorem bothOrdersOfEdgeAndMatchAreRuns : Obligations.BothOrdersOfEdgeAndMatchAreRuns := by
  intro s hm hrun hcap hcmp hpol hl hcount
  have hmatch : matchesNext s = true := (matchesNext_iff s).2 ⟨hcmp, hcount⟩
  refine ⟨?fallFirst, ?tickFirst⟩
  case fallFirst =>
    have hfall := exec_fall_resolves (s := { s with schedule := [] }) hm hcap hpol hl
    have hbefore : s.tcnt = s.tcmp - 1 := by rw [← hcount, BitVec.add_sub_cancel]
    exact ⟨_, ⟨_, moveStep_stimulus .fall rfl hfall, _,
      moveStep_stimulus .tick rfl (exec_tick_discarded (.inl rfl) hrun hmatch), rfl⟩, rfl,
      congrArg (· - s.riseTicks) hbefore⟩
  case tickFirst =>
    have htick := exec_tick_timesOut (s := { s with schedule := [] }) (by simp [hm, MeasState.awaiting]) hrun hmatch
    exact ⟨_, ⟨_, moveStep_stimulus .tick rfl htick, _,
      moveStep_stimulus .fall rfl (exec_fall_discarded (.inr rfl) hcap hpol hl), rfl⟩, rfl, rfl, hcount⟩

end Sys2Proof.Safety
end

section
/-! Cycles repeat without end (R211, R212): in an infinite run that meets the fairness and the duties an enabled
operation is taken, a running delay runs out, a measurement completes, and so every phase is left for the next. -/

namespace Sys2Proof.Safety

open Sys2Proof.Machine

variable {s t : State} {m : Move} {i : Instr} {μ : Nat → Move} {σ : Nat → State}

/-- A move keeps the couplings. -/
theorem Coupled.ofMoveStep (h : Coupled s) (ht : moveStep m s = .next t) : Coupled t :=
  stepKeepsTheCouplings _ t (h.recorded [m] s.trace) ht

/-- A complete cycle stays complete under every stimulus but RESET (R24). -/
theorem Coupled.stays_complete (h : Coupled s) (hi : i.opClass = .stimulus) (hreset : i ≠ .reset)
    (ht : exec i s = .next t) (hcomplete : s.cycleComplete = true) : t.cycleComplete = true := by
  rcases stimulus_measurement hi ht with hkept | hmoved
  · exact hkept.cycleComplete.trans hcomplete
  cases hmoved with
  | armed op => subst op; cases hi
  | riseCounted _ _ _ _ hc => exact hc.trans hcomplete
  | fallCounted _ before => rcases h.terminal_of_complete hcomplete with hm | hm <;> simp [hm] at before
  | timedOut _ _ _ _ _ hc => exact hc
  | tornDown op => subst op; cases hi
  | reset op => exact absurd op hreset

/-- What keeps an operation enabled: the phase and the configuration, a delay that has run out, a cycle that is
complete (R203). -/
theorem enabledOp_of_kept (hi : enabledOp s = some i) (hphase : t.seqPhase = s.seqPhase)
    (hparams : t.params = s.params) (hdelay : s.seqDelay = 0 → t.seqDelay = 0)
    (hcomplete : s.cycleComplete = true → t.cycleComplete = true) : enabledOp t = some i := by
  rcases enabledOp_some hi with ⟨rfl, hp⟩ | ⟨rfl, hp, hd⟩ | ⟨rfl, hp⟩ | ⟨rfl, hp, hc⟩ | ⟨rfl, hp, hd⟩
  · simp [enabledOp, hphase, hp]
  · simp [enabledOp, hphase, hp, hdelay hd]
  · simp [enabledOp, hphase, hp, hparams]
  · simp [enabledOp, hphase, hp, hcomplete hc]
  · simp [enabledOp, hphase, hp, hdelay hd]

/-- No USTICK moves a delay that has run out (R103). -/
theorem CountedOff.delay_stays_zero {n : Nat} (h : CountedOff n s t) (hd : s.seqDelay = 0) : t.seqDelay = 0 := by
  apply BitVec.eq_of_toNat_eq
  rw [h.delay, hd]
  exact Nat.zero_sub n

/-- An enabled operation stays enabled until the sequencer's turn, RESET apart (R203, R206). -/
theorem Coupled.enabledOp_stays (h : Coupled s) (hi : enabledOp s = some i) (hm : m ≠ .sequencer)
    (hr : presents .reset m = false) (ht : moveStep m s = .next t) : enabledOp t = some i := by
  rcases moveStep_cases ht with ⟨w, c, rfl, -, rfl⟩ | ⟨w, j, u, rfl, hd, hu, rfl⟩ | ⟨-, -, rfl, -⟩ | ⟨rfl, -⟩
  · exact hi
  · have hstimulus := decodePort_stimulus hd
    have hreset : j ≠ .reset := by
      rintro rfl
      simp [presents, hd] at hr
    have hcounted := stimulus_countedOff hstimulus hreset hu
    have hcomplete := (h.recorded [] s.trace).stays_complete hstimulus hreset hu
    exact enabledOp_of_kept hi hcounted.phase (exec_frame hu).1 hcounted.delay_stays_zero hcomplete
  · exact absurd rfl hm
  · exact absurd rfl hm

/-- An operation is enabled in one phase only (R203). -/
theorem seqPhase_of_enabledOp (hs : enabledOp s = some i) (ht : enabledOp t = some i) : s.seqPhase = t.seqPhase := by
  have hti := enabledOp_some ht
  rcases enabledOp_some hs with ⟨rfl, hp⟩ | ⟨rfl, hp, -⟩ | ⟨rfl, hp⟩ | ⟨rfl, hp, -⟩ | ⟨rfl, hp, -⟩ <;> simp_all

/-- How many operations of the sequencer lie before phase WAIT in its cycle (R200). -/
def operationsToWait : SeqPhase → Nat
  | .wait => 0
  | .arming => 1
  | .pulse => 2
  | .idle => 3
  | .quiet => 4

/-- An operation of the sequencer is TEARDOWN, or brings phase WAIT one operation nearer. -/
theorem enabledOp_nears_wait (hi : enabledOp s = some i) (ht : exec i s = .next t) :
    i = .teardown ∨ operationsToWait t.seqPhase + 1 = operationsToWait s.seqPhase := by
  rcases enabledOp_moves_phase hi ht with
    ⟨hp, hq, rfl⟩ | ⟨hp, hq, rfl⟩ | ⟨hp, hq, rfl⟩ | ⟨hp, hq, rfl⟩ | ⟨hp, hq, rfl⟩ <;>
    simp [hp, hq, operationsToWait]

/-- The sequencer's turn does what its enabled operation does to the phase. -/
theorem sequencer_nears_wait (hi : enabledOp s = some i) (ht : moveStep .sequencer s = .next t) :
    i = .teardown ∨ operationsToWait t.seqPhase + 1 = operationsToWait s.seqPhase := by
  obtain ⟨u, hu⟩ := exec_enabledOp_next (s := { s with schedule := [] }) hi
  obtain rfl := Host.Outcome.next.inj (ht.symm.trans (sequencerStep_enabled hi hu))
  have hnears := enabledOp_nears_wait (s := { s with schedule := [] }) hi hu
  exact hnears

/-- A timed phase whose delay still runs (R25). -/
structure Delaying (p : SeqPhase) (s : State) : Prop where
  timed : Timed s
  phase : s.seqPhase = p
  running : s.seqDelay ≠ 0

theorem countOf_singleton_le (i : Instr) (m : Move) : countOf i [m] ≤ 1 :=
  List.countP_le_length

/-- A move short of RESET ends the delay, or counts its USTICK off it. -/
theorem Delaying.moveStep {p : SeqPhase} (h : Delaying p s) (hr : presents .reset m = false)
    (ht : Safety.moveStep m s = .next t) :
    (t.seqPhase = p ∧ t.seqDelay = 0)
      ∨ (Delaying p t ∧ t.seqDelay.toNat + countOf .ustick [m] ≤ s.seqDelay.toNat) := by
  have hpos : 0 < s.seqDelay.toNat := Nat.pos_of_ne_zero fun hd => h.running (BitVec.eq_of_toNat_eq hd)
  have hcounted := moveStep_countedOff (h.timed.enabledOp_eq_none hpos) hr ht
  have hphase : t.seqPhase = p := hcounted.phase.trans h.phase
  by_cases hd : t.seqDelay = 0
  · exact .inl ⟨hphase, hd⟩
  · have hone := countOf_singleton_le .ustick m
    have hdelay := hcounted.delay
    exact .inr ⟨⟨hcounted.timed h.timed, hphase, hd⟩, by omega⟩

/-- A move short of RESET completes the measurement, or takes its TICK from those left to the compare value. -/
theorem Measuring.moveStep_left (h : Measuring s) (hr : presents .reset m = false)
    (ht : Safety.moveStep m s = .next t) :
    t.cycleComplete = true
      ∨ (Measuring t ∧ t.tcmp.toNat - t.tcnt.toNat + countOf .tick [m] ≤ s.tcmp.toNat - s.tcnt.toNat) := by
  refine (h.moveStep hr ht).imp_right fun hcounted => ⟨hcounted.measuring, ?_⟩
  have hahead := BitVec.lt_def.1 hcounted.measuring.ahead
  rw [hcounted.tcmp, hcounted.tcnt] at hahead ⊢
  omega

/-- What presses on to its end: while `Busy` lasts, no move puts off what is `left`, each stimulus `i` takes one off it,
and `i` keeps being presented. Then `Done` is reached. -/
theorem eventually_done {Busy Done : State → Prop} {left : State → Nat}
    (hstep : ∀ k, Busy (σ k) →
      Done (σ (k + 1)) ∨ (Busy (σ (k + 1)) ∧ left (σ (k + 1)) + countOf i [μ k] ≤ left (σ k)))
    (hduty : ∀ n, (∀ k, n ≤ k → Busy (σ k)) → ∃ k, n ≤ k ∧ presents i (μ k) = true)
    {n : Nat} (hn : Busy (σ n)) : ∃ k, n ≤ k ∧ Done (σ k) := by
  induction hl : left (σ n) using Nat.strong_induction_on generalizing n with
  | _ l ih =>
    by_contra hnever
    have hnext : ∀ k, n ≤ k → Busy (σ k) →
        Busy (σ (k + 1)) ∧ left (σ (k + 1)) + countOf i [μ k] ≤ left (σ k) := fun k hk hbusy =>
      (hstep k hbusy).resolve_left fun hdone => hnever ⟨k + 1, by omega, hdone⟩
    have hbusy : ∀ k, n ≤ k → Busy (σ k) :=
      fun k hk => Nat.le_induction hn (fun k hk h => (hnext k hk h).1) k hk
    have hdown : AntitoneOn (fun k => left (σ k)) {k | n ≤ k} :=
      antitoneOn_nat_Ici_of_succ_le fun k hk => Nat.le_of_add_right_le (hnext k hk (hbusy k hk)).2
    obtain ⟨b, hb, hpresented⟩ := hduty n hbusy
    obtain ⟨hlater, hlast⟩ := hnext b hb (hbusy b hb)
    rw [countOf_singleton_of_presents hpresented] at hlast
    have hbefore : left (σ b) ≤ left (σ n) := hdown (le_refl n) hb hb
    obtain ⟨k, hk, hdone⟩ := ih (left (σ (b + 1))) (by omega) hlater rfl
    exact hnever ⟨k, by omega, hdone⟩

/-- An infinite run of coupled states without RESET that meets the fairness of R211 and the duties of R326. -/
structure FairRun (μ : Nat → Move) (σ : Nat → State) : Prop where
  isRun : IsRun μ σ
  coupled : ∀ n, Coupled (σ n)
  fair : WeaklyFair μ σ
  tickDuty : TickDuty μ σ
  ustickDuty : UstickDuty μ σ
  noReset : ∀ n, presents .reset (μ n) = false

/-- The couplings hold along a run that begins coupled. -/
theorem IsRun.coupled (hrun : IsRun μ σ) (h : Coupled (σ 0)) (n : Nat) : Coupled (σ n) := by
  induction n with
  | zero => exact h
  | succ n ih => exact ih.ofMoveStep (hrun n)

/-- An enabled operation is taken. -/
theorem FairRun.taken (h : FairRun μ σ) {n : Nat} (hi : enabledOp (σ n) = some i) :
    ∃ k, n ≤ k ∧ μ k = .sequencer ∧ enabledOp (σ k) = some i := by
  by_contra hnever
  have hstays : ∀ k, n ≤ k → enabledOp (σ k) = some i := fun k hk =>
    Nat.le_induction hi (fun k hk hik =>
      (h.coupled k).enabledOp_stays hik (fun hturn => hnever ⟨k, hk, hturn, hik⟩) (h.noReset k) (h.isRun k)) k hk
  obtain ⟨k, hk, hturn⟩ := h.fair n fun k hk => by simp [hstays k hk]
  exact hnever ⟨k, hk, hturn, hstays k hk⟩

/-- The delay of a timed phase runs out in the phase. -/
theorem FairRun.delay_runs_out (h : FairRun μ σ) {n : Nat} (ht : Timed (σ n)) :
    ∃ k, n ≤ k ∧ (σ k).seqPhase = (σ n).seqPhase ∧ (σ k).seqDelay = 0 := by
  by_cases hd : (σ n).seqDelay = 0
  · exact ⟨n, le_rfl, rfl, hd⟩
  · exact eventually_done (Busy := Delaying (σ n).seqPhase) (i := .ustick) (left := fun s => s.seqDelay.toNat)
      (Done := fun s => s.seqPhase = (σ n).seqPhase ∧ s.seqDelay = 0)
      (fun k hk => hk.moveStep (h.noReset k) (h.isRun k))
      (fun a ha => h.ustickDuty a fun k hk => (ha k hk).running) ⟨ht, rfl, hd⟩

/-- A cycle in phase WAIT completes there. -/
theorem FairRun.cycle_completes (h : FairRun μ σ) {n : Nat} (hp : (σ n).seqPhase = .wait) :
    ∃ k, n ≤ k ∧ (σ k).seqPhase = .wait ∧ (σ k).cycleComplete = true := by
  have hcompleted : ∃ k, n ≤ k ∧ (σ k).cycleComplete = true := by
    by_cases ha : (σ n).measState.awaiting = true
    · exact eventually_done (Busy := Measuring) (i := .tick) (left := fun s => s.tcmp.toNat - s.tcnt.toNat)
        (Done := fun s => s.cycleComplete = true)
        (fun k hk => hk.moveStep_left (h.noReset k) (h.isRun k))
        (fun a hbusy => h.tickDuty a fun k hk => (hbusy k hk).running) ((h.coupled n).measuring ha)
    · obtain ⟨hwait, -⟩ := (h.coupled n).phase
      obtain ⟨-, -, -, hcomplete⟩ := (h.coupled n).edge
      have hm := (awaiting_eq_false_iff _).1 (Bool.eq_false_iff.2 ha)
      exact ⟨n, le_rfl, hcomplete.2 (hm.resolve_left (hwait.1 hp))⟩
  obtain ⟨k, hk, hc⟩ := hcompleted
  refine ⟨k, hk, (h.coupled k).wait_of_ne_idle ?_, hc⟩
  rcases (h.coupled k).terminal_of_complete hc with hm | hm <;> simp [hm]

/-- In every phase the operation that leaves it is enabled at last. -/
theorem FairRun.enabled (h : FairRun μ σ) (n : Nat) :
    ∃ k i, n ≤ k ∧ (σ k).seqPhase = (σ n).seqPhase ∧ enabledOp (σ k) = some i := by
  cases hp : (σ n).seqPhase with
  | idle => exact ⟨n, _, le_rfl, hp, (enabledOp_trigBegin_iff _).2 hp⟩
  | pulse =>
    obtain ⟨k, hk, hphase, hd⟩ := h.delay_runs_out (.inl hp)
    rw [hp] at hphase
    exact ⟨k, _, hk, hphase, (enabledOp_trigEnd_iff _).2 ⟨hphase, hd⟩⟩
  | arming => exact ⟨n, _, le_rfl, hp, (enabledOp_arm_iff _).2 hp⟩
  | wait =>
    obtain ⟨k, hk, hphase, hc⟩ := h.cycle_completes hp
    exact ⟨k, _, hk, hphase, (enabledOp_teardown_iff _).2 ⟨hphase, hc⟩⟩
  | quiet =>
    obtain ⟨k, hk, hphase, hd⟩ := h.delay_runs_out (.inr hp)
    rw [hp] at hphase
    exact ⟨k, _, hk, hphase, (enabledOp_quietEnd_iff _).2 ⟨hphase, hd⟩⟩

/-- From every phase the operation that leaves it is taken. -/
theorem FairRun.leaves_phase (h : FairRun μ σ) (n : Nat) :
    ∃ k i, n ≤ k ∧ μ k = .sequencer ∧ enabledOp (σ k) = some i ∧ (σ k).seqPhase = (σ n).seqPhase := by
  obtain ⟨a, i, ha, hphase, hi⟩ := h.enabled n
  obtain ⟨k, hk, hturn, hik⟩ := h.taken hi
  exact ⟨k, i, ha.trans hk, hturn, hik, (seqPhase_of_enabledOp hik hi).trans hphase⟩

/-- TEARDOWN is taken after every point of the run, by induction on the operations before phase WAIT. -/
theorem FairRun.teardown_taken (h : FairRun μ σ) (n : Nat) :
    ∃ k, n ≤ k ∧ μ k = .sequencer ∧ enabledOp (σ k) = some .teardown := by
  induction hd : operationsToWait (σ n).seqPhase using Nat.strong_induction_on generalizing n with
  | _ d ih =>
    obtain ⟨k, i, hk, hturn, hi, hphase⟩ := h.leaves_phase n
    rcases sequencer_nears_wait hi (hturn ▸ h.isRun k) with rfl | hnearer
    · exact ⟨k, hk, hturn, hi⟩
    · rw [hphase, hd] at hnearer
      obtain ⟨m, hm, hlater⟩ := ih _ (by omega) (k + 1) rfl
      exact ⟨m, by omega, hlater⟩

/-- Settles O60: the premises make the run a fair one, of coupled states throughout. -/
theorem cyclesRepeatWithoutEnd : Obligations.CyclesRepeatWithoutEnd :=
  fun _ _ hrun hc hfair htick hustick hreset =>
    FairRun.teardown_taken ⟨hrun, hrun.coupled hc, hfair, htick, hustick, hreset⟩

end Sys2Proof.Safety
end

section
/-! Interrupts and rejects (R301 to R313): what a stimulus that raises no interrupt can write, what a rejected stimulus
leaves behind, and how a step moves the fault registers. -/

namespace Sys2Proof.Safety

open Sys2Proof.Machine

variable {s t u : State} {i : Instr} {w : Word} {c : RejectCode} {rest : List Move}

/-- Outside the handlers a stimulus other than RESET writes the delay, the counter, the echo line's two registers and
the fault registers only (R302). -/
theorem exec_uninterrupted (hi : i.opClass = .stimulus) (hreset : i ≠ .reset) (hquiet : raisedInterrupt i s = none)
    (ht : exec i s = .next t) :
    ∃ delay count level armed fault code,
      t = { s with seqDelay := delay, tcnt := count, echoLvl := level, armedHigh := armed, fault := fault,
                   faultCode := code } := by
  cases i with
  | tick =>
    rcases exec_tick s with ⟨-, e⟩ | ⟨-, -, e⟩ | ⟨hrun, hmatch, -⟩
    · rw [e] at ht; cases ht; exact ⟨_, _, _, _, _, _, rfl⟩
    · rw [e] at ht; cases ht; exact ⟨_, _, _, _, _, _, rfl⟩
    · have hraised := raisedInterrupt_timeout_iff.2 ⟨rfl, hrun, hmatch⟩
      simp [hraised] at hquiet
  | rise =>
    rcases exec_rise s with ⟨-, e⟩ | ⟨-, -, e⟩ | ⟨hl, hc, -⟩
    · rw [e] at ht; cases ht; exact ⟨_, _, _, _, _, _, rfl⟩
    · rw [e] at ht; cases ht; exact ⟨_, _, _, _, _, _, rfl⟩
    · simp [raisedInterrupt, hl, hc] at hquiet
  | fall =>
    rcases exec_fall s with ⟨-, e⟩ | ⟨-, -, e⟩ | ⟨hl, hc, -⟩
    · rw [e] at ht; cases ht; exact ⟨_, _, _, _, _, _, rfl⟩
    · rw [e] at ht; cases ht; exact ⟨_, _, _, _, _, _, rfl⟩
    · simp [raisedInterrupt, hl, hc] at hquiet
  | staleRise v =>
    rcases exec_staleRise v s with ⟨-, e⟩ | ⟨hs, -⟩
    · rw [e] at ht; cases ht; exact ⟨_, _, _, _, _, _, rfl⟩
    · simp [raisedInterrupt, hs] at hquiet
  | byte mosi => cases hquiet
  | ustick => cases ht; exact ⟨_, _, _, _, _, _, rfl⟩
  | reset => exact absurd rfl hreset
  | trigBegin => cases hi
  | trigEnd => cases hi
  | arm n => cases hi
  | teardown => cases hi
  | quietEnd => cases hi

/-- Settles O48: no handler register is among those a stimulus writes without an interrupt. -/
theorem noInterruptNoHandler : Obligations.NoInterruptNoHandler := by
  intro i s t hi hreset hquiet ht
  obtain ⟨_, _, _, _, _, _, rfl⟩ := exec_uninterrupted hi hreset hquiet ht
  exact ⟨rfl, rfl, rfl, rfl, rfl, rfl, rfl, rfl, rfl, rfl, rfl⟩

/-- `t` holds the fault registers of `s`. -/
structure KeepsFault (s t : State) : Prop where
  fault : t.fault = s.fault
  faultCode : t.faultCode = s.faultCode

theorem capture_keeps_fault (v : Ticks) (s : State) : KeepsFault s (capture v s) := by
  obtain ⟨-, -, -, -, -, -, -, -, -, -, -, hfault, hcode, -, -⟩ := capture_frame v s
  exact ⟨hfault, hcode⟩

theorem timeoutHandler_keeps_fault (s : State) : KeepsFault s (timeoutHandler s) := by
  obtain ⟨-, -, -, -, -, -, hfault, hcode, -, -⟩ := timeoutHandler_frame s
  exact ⟨hfault, hcode⟩

/-- An admitted operation other than RESET leaves the fault registers alone (R310, R313). -/
theorem exec_keeps_fault (hreset : i ≠ .reset) (hadm : admissionReject i s = none) (ht : exec i s = .next t) :
    KeepsFault s t := by
  cases i with
  | tick =>
    rcases exec_tick s with ⟨-, e⟩ | ⟨-, -, e⟩ | ⟨-, -, e⟩ <;> rw [e] at ht <;> cases ht
    · exact ⟨rfl, rfl⟩
    · exact ⟨rfl, rfl⟩
    · exact { timeoutHandler_keeps_fault { s with tcnt := nextCount s.tcnt } with }
  | rise =>
    rcases exec_rise s with ⟨hl, -⟩ | ⟨-, -, e⟩ | ⟨-, -, e⟩
    · simp [admissionReject, riseReject, hl] at hadm
    · rw [e] at ht; cases ht; exact ⟨rfl, rfl⟩
    · rw [e] at ht; cases ht; exact { capture_keeps_fault s.tcnt { s with echoLvl := true, armedHigh := false } with }
  | fall =>
    rcases exec_fall s with ⟨hl, -⟩ | ⟨-, -, e⟩ | ⟨-, -, e⟩
    · simp [admissionReject, fallReject, hl] at hadm
    · rw [e] at ht; cases ht; exact ⟨rfl, rfl⟩
    · rw [e] at ht; cases ht; exact { capture_keeps_fault s.tcnt { s with echoLvl := false, armedHigh := false } with }
  | staleRise v =>
    rcases exec_staleRise v s with ⟨hs, -⟩ | ⟨-, e⟩
    · simp [admissionReject, staleReject, hs] at hadm
    · rw [e] at ht; cases ht; exact { capture_keeps_fault v { s with armedHigh := false } with }
  | byte mosi => cases ht; exact ⟨rfl, rfl⟩
  | ustick => cases ht; exact ⟨rfl, rfl⟩
  | reset => exact absurd rfl hreset
  | trigBegin => obtain ⟨-, rfl⟩ := whenEnabled_next.1 ht; exact ⟨rfl, rfl⟩
  | trigEnd => obtain ⟨-, rfl⟩ := whenEnabled_next.1 ht; exact ⟨rfl, rfl⟩
  | arm n => obtain ⟨-, rfl⟩ := whenEnabled_next.1 ht; exact ⟨rfl, rfl⟩
  | teardown => obtain ⟨-, rfl⟩ := whenEnabled_next.1 ht; exact ⟨rfl, rfl⟩
  | quietEnd => obtain ⟨-, rfl⟩ := whenEnabled_next.1 ht; exact ⟨rfl, rfl⟩

/-- No internal operation is ever turned away (R310). -/
theorem admissionReject_of_internal (hi : i.opClass = .internal) (s : State) : admissionReject i s = none := by
  cases i with
  | rise => cases hi
  | fall => cases hi
  | staleRise v => cases hi
  | _ => rfl

theorem opClass_of_enabledOp (hi : enabledOp s = some i) : i.opClass = .internal := by
  rcases enabledOp_some hi with ⟨rfl, -⟩ | ⟨rfl, -⟩ | ⟨rfl, -⟩ | ⟨rfl, -⟩ | ⟨rfl, -⟩ <;> rfl

theorem internal_keeps_fault (hi : i.opClass = .internal) (ht : exec i s = .next t) : KeepsFault s t :=
  exec_keeps_fault (by rintro rfl; cases hi) (admissionReject_of_internal hi s) ht

/-- A stimulus is rejected by the decoder or by its admission check (R311). -/
theorem stimulusOutcome_rejected_iff :
    stimulusOutcome w s = .rejected c
      ↔ decodePort w = .error c ∨ ∃ i, decodePort w = .ok i ∧ admissionReject i s = some c := by
  cases hd : decodePort w with
  | error d => simp [stimulusOutcome, hd]
  | ok i => cases ha : admissionReject i s <;> simp [stimulusOutcome, hd, ha]

/-- A step that presents a stimulus its admission check turns away changes the fault registers, the schedule and the
trace (R310). -/
theorem step_turnedAway (hs : s.schedule = .stimulus w :: rest) (hd : decodePort w = .ok i)
    (ha : admissionReject i s = some c) : step s = .next (afterReject c w rest s) := by
  have ha' : admissionReject i { s with schedule := rest } = some c := (admissionReject_schedule i s rest).trans ha
  have houtcome := stimulusOutcome_rejected_iff.2 (.inr ⟨i, hd, ha'⟩)
  rw [step_stimulus hs hd (exec_of_admissionReject ha'), houtcome]
  rfl

/-- Settles O32, by the two ways a stimulus is rejected; the trace entry of a rejection holds no byte. -/
theorem rejectChangesOnlyTheFaultRegisters : Obligations.RejectChangesOnlyTheFaultRegisters := by
  refine ⟨fun c s => rfl, fun s w rest c hs houtcome => ⟨?_, rfl⟩, fun i s t hi ht => ?_⟩
  · rw [stimulusOutcome_schedule, stimulusOutcome_rejected_iff] at houtcome
    rcases houtcome with hd | ⟨i, hd, ha⟩
    · exact step_rejected hs hd
    · exact step_turnedAway hs hd ha
  · obtain ⟨hfault, hcode⟩ := internal_keeps_fault hi ht
    exact ⟨hfault, hcode⟩

/-- The step from `s` to `t` records a rejected stimulus (R88). -/
def RecordsReject (s t : State) : Prop := ∃ w c, t.trace = .stimulus w (.rejected c) :: s.trace

/-- A step that adds another entry to the trace records no rejection. -/
theorem not_recordsReject_of_entry {ev : TraceEvent} (htrace : t.trace = ev :: s.trace)
    (hev : ∀ w c, ev ≠ .stimulus w (.rejected c)) : ¬ RecordsReject s t := by
  rintro ⟨w, c, h⟩
  exact hev w c (List.cons.inj (htrace.symm.trans h)).1

/-- What the step from `s` to `t` does to the fault registers: its stimulus is rejected, RESET clears them, or they
are kept (R310, R313). -/
inductive FaultEffect (s t : State) : Prop where
  | rejected (op : performed s = none) (fault : t.fault = true) (sticky : s.fault = true → t.faultCode = s.faultCode)
      (records : RecordsReject s t)
  | cleared (op : performed s = some .reset) (fault : t.fault = false) (faultCode : t.faultCode = 0)
      (records : ¬ RecordsReject s t)
  | kept (op : performed s ≠ some .reset) (keeps : KeepsFault s t) (records : ¬ RecordsReject s t)

theorem faultEffect_rejected (hop : performed s = none) (c : RejectCode) (w : Word) (rest : List Move) :
    FaultEffect s (afterReject c w rest s) :=
  .rejected hop rfl (fun h => if_pos h) ⟨w, c, rfl⟩

/-- An operation that is performed is RESET, or it keeps the fault registers. -/
theorem faultEffect_performed {ev : TraceEvent} (hop : performed s = some i) (hadm : admissionReject i s = none)
    (hu : exec i { s with schedule := rest } = .next u) (hev : ∀ w c, ev ≠ .stimulus w (.rejected c)) :
    FaultEffect s { u with trace := ev :: u.trace } := by
  have htrace : u.trace = s.trace := (exec_frame hu).2
  have hrecords : ¬ RecordsReject s { u with trace := ev :: u.trace } :=
    not_recordsReject_of_entry (congrArg (ev :: ·) htrace) hev
  by_cases hreset : i = .reset
  · subst hreset
    cases hu
    exact .cleared hop rfl rfl hrecords
  · have hkept := exec_keeps_fault hreset ((admissionReject_schedule i s rest).trans hadm) hu
    exact .kept (by simp [hop, hreset]) { hkept with } hrecords

/-- A step whose stimulus decodes turns it away or performs it. -/
theorem faultEffect_stimulus (hs : s.schedule = .stimulus w :: rest) (hd : decodePort w = .ok i)
    (ht : step s = .next t) : FaultEffect s t := by
  cases ha : admissionReject i s with
  | some c =>
    obtain rfl := Host.Outcome.next.inj (ht.symm.trans (step_turnedAway hs hd ha))
    exact faultEffect_rejected (by simp [performed, hs, hd, ha]) c w rest
  | none =>
    obtain ⟨u, hu⟩ := exec_stimulus_next (decodePort_stimulus hd) { s with schedule := rest }
    obtain rfl := Host.Outcome.next.inj (ht.symm.trans (step_stimulus hs hd hu))
    refine faultEffect_performed (by simp [performed, hs, hd, ha]) ha hu fun v c hev => ?_
    rw [stimulusOutcome_schedule] at hev
    simp [stimulusOutcome, hd, ha] at hev

/-- What a step does to the fault registers, by the four things a step can be. -/
theorem step_faultEffect (ht : step s = .next t) : FaultEffect s t := by
  obtain ⟨r, hr⟩ := nextMove_eq s
  rcases step_cases ht with ⟨w, rest, c, hs, hd, rfl⟩ | ⟨w, rest, i, u, hs, hd, -, -⟩ | ⟨i, u, hn, hi, hu, rfl⟩
    | ⟨hn, hi, rfl⟩
  · exact faultEffect_rejected (by simp [performed, hs, hd]) c w rest
  · exact faultEffect_stimulus hs hd ht
  · rw [hr] at hu
    have hop : performed s = some i := (performed_of_sequencer hn).trans hi
    exact faultEffect_performed hop (admissionReject_of_internal (opClass_of_enabledOp hi) s) hu nofun
  · rw [hr]
    have hop : performed s = none := (performed_of_sequencer hn).trans hi
    exact .kept (by simp [hop]) ⟨rfl, rfl⟩ (by simp [RecordsReject])

/-- Settles O33, by the three effects of a step on the fault registers. -/
theorem faultIsStickyUntilReset : Obligations.FaultIsStickyUntilReset := by
  intro s t ht
  cases step_faultEffect ht with
  | rejected hop hfault hsticky hrecords =>
    have hleft : ¬ InContract t := by simp [InContract, hfault]
    exact ⟨fun hf _ => ⟨hfault, hsticky hf⟩, fun h => by simp [hop] at h, fun _ => iff_of_true hleft hrecords⟩
  | cleared hop hfault hcode hrecords =>
    exact ⟨fun _ h => absurd hop h, fun _ => ⟨hfault, hcode⟩, fun _ => iff_of_false (not_not_intro hfault) hrecords⟩
  | kept hop hkept hrecords =>
    obtain ⟨hfault, hcode⟩ := hkept
    exact ⟨fun hf _ => ⟨hfault.trans hf, hcode⟩, fun h => absurd h hop,
      fun hin => iff_of_false (not_not_intro (hfault.trans hin)) hrecords⟩

end Sys2Proof.Safety
end

section
/-! RESET (R400): its word, and the registers it writes. -/

namespace Sys2Proof.Safety

open Sys2Proof.Machine

/-- Settles O29: the word of RESET, and the launch state it leaves, whose registers other than the echo level are those
of R400. -/
theorem resetWritesEveryRegisterButTheEchoLevel : Obligations.ResetWritesEveryRegisterButTheEchoLevel :=
  ⟨portWord_of_stimulus (o := .reset) rfl, exec_reset⟩

end Sys2Proof.Safety
end
